-- ==== Sys2Proof/Word.lean ====
section
/-! DEFINITION. The bit, the bit sequence, and the bit of a natural: the block's only data types besides naturals. -/

namespace Sys2Proof

/-- One bit. R31: "This spec uses the boolean form: an element is a bit". -/
abbrev Bit := Bool

/-- R28: a finite ordered list of bits with its length, index 0 first (R30). -/
abbrev BitSeq := List Bit

/-- R10: bit `i` of an unsigned value, bit 0 the least significant. -/
def bitAt (v i : Nat) : Bit := v.testBit i

end Sys2Proof
end

