-- ==== Sys2Proof/Syntax.lean ====
section
/-! DEFINITION. The commands (R42, R55) and the record in which the host presents one (R42 to R46). -/

namespace Sys2Proof

/-- One constructor per row of the opcode table. The operands are those of R43 to R46 and R55, in the format's order;
`taps` is the bit mask of R50. ENCRYPT and DECRYPT are the pseudo-commands of R55. -/
inductive Instr where
  | init (seed width taps : Nat)
  | step
  | run (captureLimit : Nat)
  | xor (data keystream : BitSeq)
  | encrypt (plaintext keystream : BitSeq)
  | decrypt (ciphertext keystream : BitSeq)
  deriving DecidableEq, Repr

/-- R55: the expansion of the two pseudo-commands; a command of R42 stands for itself. -/
def Instr.expand : Instr → Instr
  | .init seed width taps => .init seed width taps
  | .step => .step
  | .run captureLimit => .run captureLimit
  | .xor data keystream => .xor data keystream
  | .encrypt plaintext keystream => .xor plaintext keystream
  | .decrypt ciphertext keystream => .xor ciphertext keystream

/-- One operand field of a command record: an unsigned natural at its face value (R50) or a bit sequence carried with
its length (R51). -/
inductive Field where
  | num (n : Nat)
  | bits (s : BitSeq)
  deriving DecidableEq, Repr

/-- R42: "A command is a record: a 2-bit `opcode` and the operand fields its format lists." -/
structure CommandRecord where
  opcode : BitVec 2
  fields : List Field
  deriving DecidableEq, Repr

/-- What the host can do to the block: present a command (R119) or reset it (R104). -/
inductive HostEvent where
  | command (c : CommandRecord)
  | reset
  deriving DecidableEq, Repr

end Sys2Proof
end

