-- ==== Sys2Proof/Config.lean ====
section
/-! DEFINITION. What a physical instance fixes (R8) and the reference configuration (R9). The spec leaves no free value
open (`93_implementation_defined.md` part 1), so no opaque constant stands here. -/

namespace Sys2Proof

/-- R8: the three OPEN maxima of a physical instance. The abstract model, which `Sys2Proof.core` is, has none of them:
it accepts every value; a `Limits` is an argument of the claims about an instance (D10, D16, D22). -/
structure Config.Limits where
  wMax : Nat
  capMax : Nat
  dataMax : Nat
  deriving DecidableEq, Repr

/-- R8: an instance holds the reference width and the source's example capture length. -/
def Config.Limits.adequate (lim : Config.Limits) : Bool := 10 ≤ lim.wMax && 512 ≤ lim.capMax

/-- R9: `INIT 0b1000011001, 10, {0,7}`, the tap set as its mask 129 (R50). -/
def Config.referenceInit : Instr := .init 0b1000011001 10 0b0010000001

end Sys2Proof
end

