-- ==== Sys2Proof/WellFormed.lean ====
section
/-! DEFINITION. Which commands can be presented to a physical instance (R8, R43, R52). Operand values that break the
source's preconditions are well-formed: they are presented and answered with an error status (R52). -/

namespace Sys2Proof

/-- R43: `seed` and `taps` are `W_MAX` bits wide and `width` can name every width up to `W_MAX`; R8: `capture_limit` is
at most `CAP_MAX` and a sequence operand of XOR at most `DATA_MAX` long. A pseudo-command has its expansion's bounds. -/
def Instr.wellFormed (lim : Config.Limits) : Instr → Bool
  | .init seed width taps => seed < 2 ^ lim.wMax && width ≤ lim.wMax && taps < 2 ^ lim.wMax
  | .step => true
  | .run captureLimit => captureLimit ≤ lim.capMax
  | .xor data keystream => data.length ≤ lim.dataMax && keystream.length ≤ lim.dataMax
  | .encrypt plaintext keystream => plaintext.length ≤ lim.dataMax && keystream.length ≤ lim.dataMax
  | .decrypt ciphertext keystream => ciphertext.length ≤ lim.dataMax && keystream.length ≤ lim.dataMax

end Sys2Proof
end

