-- ==== Sys2Proof/Decode.lean ====
section
/-! DEFINITION. Reading a command record, rejecting by name, and writing one (R42 to R46, R52, R53). -/

namespace Sys2Proof

/-- Why a record is no command: its fields are not those that the format of its opcode lists. The opcode itself is
never the reason, since all four are defined (R52). -/
inductive DecodeError where
  | notInitFormat
  | notStepFormat
  | notRunFormat
  | notXorFormat
  deriving DecidableEq, Repr

/-- R42: the opcode of INIT. -/
def opInit : BitVec 2 := 0b00#2
/-- R42: the opcode of STEP. -/
def opStep : BitVec 2 := 0b01#2
/-- R42: the opcode of RUN. -/
def opRun : BitVec 2 := 0b10#2
/-- R42: the opcode of XOR. -/
def opXor : BitVec 2 := 0b11#2

/-- R43: `seed`, `width`, `taps`. -/
def decodeInit : List Field → Except DecodeError Instr
  | [.num seed, .num width, .num taps] => .ok (.init seed width taps)
  | _ => .error .notInitFormat

/-- R44: no operand. -/
def decodeStep : List Field → Except DecodeError Instr
  | [] => .ok .step
  | _ => .error .notStepFormat

/-- R45: `capture_limit`. -/
def decodeRun : List Field → Except DecodeError Instr
  | [.num captureLimit] => .ok (.run captureLimit)
  | _ => .error .notRunFormat

/-- R46: `data`, `keystream`. -/
def decodeXor : List Field → Except DecodeError Instr
  | [.bits data, .bits keystream] => .ok (.xor data keystream)
  | _ => .error .notXorFormat

/-- R53: "The `opcode` alone selects the format". No record decodes to a pseudo-command: it has no opcode (R55). -/
def decode (c : CommandRecord) : Except DecodeError Instr :=
  if c.opcode = opInit then decodeInit c.fields
  else if c.opcode = opStep then decodeStep c.fields
  else if c.opcode = opRun then decodeRun c.fields
  else decodeXor c.fields

/-- The record of a command, written from R43 to R46; a pseudo-command has the record of its expansion (R55). -/
def encode : Instr → CommandRecord
  | .init seed width taps => ⟨opInit, [.num seed, .num width, .num taps]⟩
  | .step => ⟨opStep, []⟩
  | .run captureLimit => ⟨opRun, [.num captureLimit]⟩
  | .xor data keystream => ⟨opXor, [.bits data, .bits keystream]⟩
  | .encrypt plaintext keystream => ⟨opXor, [.bits plaintext, .bits keystream]⟩
  | .decrypt ciphertext keystream => ⟨opXor, [.bits ciphertext, .bits keystream]⟩

/-- The fields that the format of an opcode lists, every operand at zero: a numeric operand 0, a sequence empty. -/
def zeroFields (opcode : BitVec 2) : List Field :=
  if opcode = opInit then [.num 0, .num 0, .num 0]
  else if opcode = opStep then []
  else if opcode = opRun then [.num 0]
  else [.bits [], .bits []]

/-- The record of a word of the opcode table: its opcode stands in bits 1:0 (the table's mask is 3), the bits that pad
it to whole bytes belong to no field, and every operand is zero. -/
def tableRecord (w : Nat) : CommandRecord := ⟨BitVec.ofNat 2 w, zeroFields (BitVec.ofNat 2 w)⟩

/-- The command the decoder reads from a word of the opcode table; a word too short to hold an opcode is none. -/
def decodeTableWord (nbits w : Nat) : Option Instr :=
  if nbits < 2 then none
  else match decode (tableRecord w) with
    | .ok i => some i
    | .error _ => none

end Sys2Proof
end

