-- ==== Sys2Proof/Machine/State.lean ====
section
/-! DEFINITION. The block's state as plain data, its responses, and the machine right after reset. -/

namespace Sys2Proof.Machine

/-- R15: "`mode` says whether an Engine exists and whether it has failed." -/
inductive Mode where
  | unconfigured
  | ready
  | faulted
  deriving DecidableEq, Repr

/-- The five variables that hold a value exactly when the block is configured (R14, R16 to R21). -/
structure Engine where
  /-- R16: `W`, the number of bits of `register`. -/
  width : Nat
  /-- R17: the register's initial value. -/
  seed : Nat
  /-- R18: the tap set, as the bit mask of R50. -/
  taps : Nat
  /-- R19: the shift register. -/
  register : Nat
  /-- R20: the steps since the last successful INIT; it never wraps. -/
  stepCount : Nat
  deriving DecidableEq, Repr

/-- R14, R15, R21: `mode` together with the Engine that exists exactly in the modes READY and FAULTED. -/
inductive Block where
  | unconfigured
  | ready (e : Engine)
  | faulted (e : Engine)
  deriving DecidableEq, Repr

/-- R48: the statuses of a response; the reserved codes have no constructor (R52, U17). -/
inductive Status where
  | ok
  | invalidSeed
  | keystreamExhausted
  | nonTerminating
  | invalidConfig
  | notReady
  deriving DecidableEq, Repr

/-- R49: the payloads of the responses. -/
inductive Payload where
  | none
  | bit (b : Bit)
  | run (period : Nat) (keystream : BitSeq)
  | result (bits : BitSeq)
  deriving DecidableEq, Repr

/-- R47: "A response is a record: a 3-bit `status` ... and the payload". -/
structure Response where
  status : Status
  payload : Payload
  deriving DecidableEq, Repr

/-- The machine: the block's architectural state and the two ends of its interface to the host. -/
structure State where
  /-- R14: the whole architectural state of the block. -/
  block : Block
  /-- The MODEL's own field: what the host will still do, in its order (R38, R119; log entry 1). -/
  events : List HostEvent
  /-- The MODEL's own field: the responses the host has received, oldest first (R47; log entry 2). -/
  responses : List Response
  deriving DecidableEq, Repr

/-- R27: what lives only while one RUN is performed: the Engine as stepped so far, `n` and `ks`. No part of State. -/
structure RunProgress where
  engine : Engine
  count : Nat
  captured : BitSeq
  deriving DecidableEq, Repr

/-- R65: the two ways RUN's loop ends. -/
inductive RunEnd where
  | recurred (p : RunProgress)
  | exhausted (p : RunProgress)
  deriving DecidableEq, Repr

/-- No command stops the block: every error is a response after which it waits for the next command (R94), so there is
no fault and nothing raises one. -/
inductive Fault where
  deriving DecidableEq, Repr

/-- Why a step has no next state. -/
inductive Refusal where
  /-- Raised by `exec` for an instruction that has no meaning yet: safe. No arm of this model raises it. -/
  | notModelled (mnemonic : String)
  /-- Raised by `step` for a record that is none of the four formats: safe, since the interface cannot present one
  (R42, U12), so the spec gives it no effect. -/
  | malformedCommand (why : DecodeError)
  deriving DecidableEq, Repr

/-- R104, R105: UNCONFIGURED, and `W`, `seed`, `taps`, `register`, `step_count` absent; the host has presented nothing
and received nothing (log entries 1 and 2). -/
def State.reset : State := { block := .unconfigured, events := [], responses := [] }

end Sys2Proof.Machine
end

