-- ==== Sys2Proof/Machine/Operands.lean ====
section
/-! DEFINITION. Operand forms: the tap set a mask denotes, INIT's two tests, pairing the operands of XOR. -/

namespace Sys2Proof.Machine

/-- R50: "The `taps` operand denotes the set {t : bit t of `taps` is 1}", listed in rising order. -/
def tapPositions (mask : Nat) : List Nat := (List.range (mask.log2 + 1)).filter (bitAt mask)

/-- R57: the seed test of INIT, true where it raises `InvalidSeed`. -/
def seedTestFails (seed width : Nat) : Bool := seed == 0 || 2 ^ width ≤ seed

/-- R57: the taps test of INIT, true where it raises `InvalidConfig`. -/
def tapsTestFails (taps width : Nat) : Bool :=
  (tapPositions taps).isEmpty || (tapPositions taps).any (fun t => width ≤ t)

/-- R78: element `i` of the result is `data[i] XOR keystream[i]` for each index of `data`. XOR tests the lengths
first, so `keystream` has an element at every index of `data`. -/
def xorBits (data keystream : BitSeq) : BitSeq := List.zipWith (fun d k => d ^^ k) data keystream

end Sys2Proof.Machine
end

