-- ==== Sys2Proof/Machine/Flags.lean ====
section
/-! DEFINITION. The block has no flags (R23): the outcome of a command stands in its response alone. Here are the
status codes (R48) and the table of what each command may answer (R49, R92). -/

namespace Sys2Proof.Machine

/-- R48: the 3-bit code of a status. -/
def Status.code : Status → BitVec 3
  | .ok => 0b000#3
  | .invalidSeed => 0b001#3
  | .keystreamExhausted => 0b010#3
  | .nonTerminating => 0b011#3
  | .invalidConfig => 0b100#3
  | .notReady => 0b101#3

/-- R48, R52: the status of a code; the reserved codes `110` and `111` have none. -/
def statusOfCode (c : BitVec 3) : Option Status :=
  [Status.ok, .invalidSeed, .keystreamExhausted, .nonTerminating, .invalidConfig, .notReady].find? (·.code == c)

/-- R49: the rows INIT, with the statuses of R92. -/
def Response.inInitRow : Response → Bool
  | ⟨.ok, .none⟩ | ⟨.invalidSeed, .none⟩ | ⟨.invalidConfig, .none⟩ => true
  | _ => false

/-- R49: the rows STEP. -/
def Response.inStepRow : Response → Bool
  | ⟨.ok, .bit _⟩ | ⟨.notReady, .none⟩ => true
  | _ => false

/-- R49: the rows RUN; `period` is positive and the keystream holds min(`period`, `capture_limit`) bits. -/
def Response.inRunRow (captureLimit : Nat) : Response → Bool
  | ⟨.ok, .run period keystream⟩ => 0 < period && keystream.length == min period captureLimit
  | ⟨.nonTerminating, .none⟩ | ⟨.notReady, .none⟩ => true
  | _ => false

/-- R49: the rows XOR; the result is as long as the data. -/
def Response.inXorRow (data : BitSeq) : Response → Bool
  | ⟨.ok, .result bits⟩ => bits.length == data.length
  | ⟨.keystreamExhausted, .none⟩ => true
  | _ => false

/-- R49: whether a response stands in the rows of a command. "A status that a row does not list is never returned for
that command." -/
def Response.inRow (r : Response) : Instr → Bool
  | .init _ _ _ => r.inInitRow
  | .step => r.inStepRow
  | .run captureLimit => r.inRunRow captureLimit
  | .xor data _ => r.inXorRow data
  | .encrypt plaintext _ => r.inXorRow plaintext
  | .decrypt ciphertext _ => r.inXorRow ciphertext

end Sys2Proof.Machine
end

