-- ==== Sys2Proof/Machine/Ops.lean ====
section
/-! DEFINITION. The named operations: reading and writing the block, answering, raising an error, taking an event of
the host, the feedback bit, the next-state value, one step of the Engine, and RUN's loop. -/

namespace Sys2Proof.Machine

/-- R15: the mode that a block is in. -/
def Block.mode : Block → Mode
  | .unconfigured => .unconfigured
  | .ready _ => .ready
  | .faulted _ => .faulted

/-- R21: the Engine that a block has, none when it is unconfigured. -/
def Block.engine? : Block → Option Engine
  | .unconfigured => none
  | .ready e => some e
  | .faulted e => some e

/-- R14: the variable `mode`. -/
def State.mode (s : State) : Mode := s.block.mode

/-- The state with its block replaced. -/
def State.withBlock (s : State) (b : Block) : State := { s with block := b }

/-- R47: the block answers the command it has performed. -/
def State.respond (s : State) (status : Status) (payload : Payload) : State :=
  { s with responses := s.responses ++ [⟨status, payload⟩] }

/-- R94, `raise E`: the command ends with status `E` and no payload; the state keeps what the command wrote before. -/
def State.raise (s : State) (e : Status) : State := s.respond e .none

/-- R104: reset "sets `mode` to UNCONFIGURED and does nothing else"; the Engine is gone and no response is given. -/
def State.resetBlock (s : State) : State := s.withBlock .unconfigured

/-- R38: the host's next event, and the state once it has been taken. -/
def State.takeEvent (s : State) : Option (HostEvent × State) :=
  match s.events with
  | [] => none
  | ev :: rest => some (ev, { s with events := rest })

/-- The state in which the host presents `c` next. -/
def State.presentNext (s : State) (c : CommandRecord) : State := { s with events := .command c :: s.events }

/-- R11: `XOR over t in S of e(t)`, 0 when S is empty. -/
def xorOver (positions : List Nat) (e : Nat → Bit) : Bit := positions.foldl (fun acc t => acc ^^ e t) false

/-- R61: `fb(r)`, the exclusive or of the bits of `r` at the tap positions, read before any shift. -/
def feedbackBit (taps r : Nat) : Bit := xorOver (tapPositions taps) (bitAt r)

/-- R62: `next(r) = (fb(r) << (W-1)) OR (r >> 1)`. -/
def nextValue (width taps r : Nat) : Nat := ((feedbackBit taps r).toNat <<< (width - 1)) ||| (r >>> 1)

/-- R61: the feedback bit of the Engine's register. -/
def Engine.feedback (e : Engine) : Bit := feedbackBit e.taps e.register

/-- R63: the writes of one step, `register <- next(register)` and `step_count <- step_count + 1`. -/
def Engine.advance (e : Engine) : Engine :=
  { e with register := nextValue e.width e.taps e.register, stepCount := e.stepCount + 1 }

/-- R57: the Engine that a successful INIT builds. -/
def Engine.fresh (seed width taps : Nat) : Engine :=
  { width := width, seed := seed, taps := taps, register := seed, stepCount := 0 }

/-- R65: `n <- 0`, `ks <- []`. -/
def RunProgress.start (e : Engine) : RunProgress := { engine := e, count := 0, captured := [] }

/-- R65, R66: one iteration up to its tests: one step, `n <- n + 1`, and the bit kept while there is room for it. -/
def RunProgress.advance (captureLimit : Nat) (p : RunProgress) : RunProgress :=
  { engine := p.engine.advance
    count := p.count + 1
    captured := if p.captured.length < captureLimit then p.captured ++ [p.engine.feedback] else p.captured }

/-- R65: the recurrence test, `register == seed`. -/
def RunProgress.recurs (p : RunProgress) : Bool := p.engine.register == p.engine.seed

/-- R65: the loop. `left` counts the iterations that the guard `n > 2^W` still lets follow this one, so that the guard
holds after this iteration exactly when `left` is 0; RUN starts with `left` = 2^W. -/
def runLoop (captureLimit : Nat) : (left : Nat) → RunProgress → RunEnd
  | 0, p =>
    let q := p.advance captureLimit
    if q.recurs then .recurred q else .exhausted q
  | left + 1, p =>
    let q := p.advance captureLimit
    if q.recurs then .recurred q else runLoop captureLimit left q

/-- R65: how RUN ends on a READY Engine. -/
def Engine.runUntilPeriod (captureLimit : Nat) (e : Engine) : RunEnd :=
  runLoop captureLimit (2 ^ e.width) (RunProgress.start e)

/-- R78: the effect of XOR, shared by its two aliases: the length test first, then the whole result. The Engine is
neither read nor written (R83). -/
def State.xorCombine (s : State) (data keystream : BitSeq) : State :=
  if keystream.length < data.length then s.raise .keystreamExhausted
  else s.respond .ok (.result (xorBits data keystream))

end Sys2Proof.Machine
end

