-- ==== Sys2Proof/Machine/Adapter.lean ====
section
/-! DEFINITION. The meanings of the Adapter's command XOR and of its aliases ENCRYPT and DECRYPT. -/

namespace Sys2Proof.Machine

/-- XOR (R78). -/
def execXor (data keystream : BitSeq) (s : State) : Host.Outcome State Fault Refusal :=
  .next (s.xorCombine data keystream)

/-- ENCRYPT (R79): `XOR plaintext, keystream`. -/
def execEncrypt (plaintext keystream : BitSeq) (s : State) : Host.Outcome State Fault Refusal :=
  .next (s.xorCombine plaintext keystream)

/-- DECRYPT (R80): `XOR ciphertext, keystream`. -/
def execDecrypt (ciphertext keystream : BitSeq) (s : State) : Host.Outcome State Fault Refusal :=
  .next (s.xorCombine ciphertext keystream)

end Sys2Proof.Machine
end

