-- ==== Sys2Proof/Machine/Engine.lean ====
section
/-! DEFINITION. The meanings of the Engine's commands: INIT, STEP, RUN. -/

namespace Sys2Proof.Machine

/-- INIT (R57): the seed test, then the taps test, then all six variables; the mode is not tested (R59). -/
def execInit (seed width taps : Nat) (s : State) : Host.Outcome State Fault Refusal :=
  if seedTestFails seed width then .next (s.raise .invalidSeed)
  else if tapsTestFails taps width then .next (s.raise .invalidConfig)
  else .next ((s.withBlock (.ready (Engine.fresh seed width taps))).respond .ok .none)

/-- STEP (R63): `NotReady` unless READY (R91); else one step, answered with the feedback bit of the old register. -/
def execStep (s : State) : Host.Outcome State Fault Refusal :=
  match s.block with
  | .unconfigured => .next (s.raise .notReady)
  | .faulted _ => .next (s.raise .notReady)
  | .ready e => .next ((s.withBlock (.ready e.advance)).respond .ok (.bit e.feedback))

/-- RUN (R65): `NotReady` unless READY (R91); else the loop, ending with the period and the capture or, past the guard,
with `NonTerminating` and a FAULTED Engine that keeps its steps (R67). -/
def execRun (captureLimit : Nat) (s : State) : Host.Outcome State Fault Refusal :=
  match s.block with
  | .unconfigured => .next (s.raise .notReady)
  | .faulted _ => .next (s.raise .notReady)
  | .ready e =>
    match e.runUntilPeriod captureLimit with
    | .recurred p => .next ((s.withBlock (.ready p.engine)).respond .ok (.run p.count p.captured))
    | .exhausted p => .next ((s.withBlock (.faulted p.engine)).raise .nonTerminating)

end Sys2Proof.Machine
end

