-- ==== Sys2Proof/Machine/Dispatch.lean ====
section
/-! DEFINITION. One arm per command. -/

namespace Sys2Proof.Machine

def exec (i : Instr) (s : State) : Host.Outcome State Fault Refusal :=
  match i with
  | .init seed width taps => Sys2Proof.Machine.execInit seed width taps s
  | .step => Sys2Proof.Machine.execStep s
  | .run captureLimit => Sys2Proof.Machine.execRun captureLimit s
  | .xor data keystream => Sys2Proof.Machine.execXor data keystream s
  | .encrypt plaintext keystream => Sys2Proof.Machine.execEncrypt plaintext keystream s
  | .decrypt ciphertext keystream => Sys2Proof.Machine.execDecrypt ciphertext keystream s

end Sys2Proof.Machine
end

