-- ==== Sys2Proof/Machine/Step.lean ====
section
/-! DEFINITION. One step: the block takes the host's next event and performs it as one indivisible transition (R35, R38). -/

namespace Sys2Proof.Machine

/-- With no event the block is idle and keeps its state (R103). A reset event makes it UNCONFIGURED (R104). A command
is decoded and performed whole, its event being taken first; a record of no format is refused. -/
def step (s : State) : Host.Outcome State Fault Refusal :=
  match s.takeEvent with
  | none => .next s
  | some (.reset, t) => .next t.resetBlock
  | some (.command c, t) =>
    match decode c with
    | .ok i => exec i t
    | .error why => .refused (.malformedCommand why)

/-- The state in which the host's next event presents the opcode table's word `w` with every operand zero. A word of
fewer than two bits holds no opcode and presents nothing. -/
def State.withFetchWord (s : State) (nbits w : Nat) : State :=
  if nbits < 2 then s else s.presentNext (tableRecord w)

end Sys2Proof.Machine
end

