-- ==== Sys2Proof/Safety.lean ====
section
/-! DEFINITION. The words in which claims are made: the register after k steps, the first recurrence, and what a good
state is. -/

namespace Sys2Proof.Machine

/-- R58: `seed_valid(s, w)`. -/
abbrev seedValid (seed width : Nat) : Prop := 1 ≤ seed ∧ seed ≤ 2 ^ width - 1

/-- R58: `taps_valid(T, w)` of the set a mask denotes: nonempty, and every member at most w - 1. -/
abbrev tapsValid (taps width : Nat) : Prop :=
  (∃ t, bitAt taps t = true) ∧ ∀ t, bitAt taps t = true → t < width

/-- `register` after `k` steps: the `k`-fold next-state value of R62. -/
def Engine.registerAfter (e : Engine) (k : Nat) : Nat := (nextValue e.width e.taps)^[k] e.register

/-- The Engine after `k` steps (R63): `register` and `step_count` move, the configuration stays. -/
def Engine.after (e : Engine) (k : Nat) : Engine :=
  { e with register := e.registerAfter k, stepCount := e.stepCount + k }

/-- The bit that step `k + 1` from here returns (R63). -/
def Engine.bitAfter (e : Engine) (k : Nat) : Bit := feedbackBit e.taps (e.registerAfter k)

/-- The first `n` bits that steps from here return, index 0 first (R30). -/
def Engine.bits (e : Engine) (n : Nat) : BitSeq := (List.range n).map e.bitAfter

/-- R65: the first `n` ≥ 1 steps from here after which `register` equals `seed`. -/
def Engine.FirstRecurrence (e : Engine) (n : Nat) : Prop :=
  1 ≤ n ∧ e.registerAfter n = e.seed ∧ ∀ k, 1 ≤ k → k < n → e.registerAfter k ≠ e.seed

/-- The configuration and register of an Engine that INIT and steps can have made (R16 to R20, R25, R26): a legal
seed and tap set, a register of `W` bits, and that register the `step_count`-fold next value of the seed. -/
structure Engine.Good (e : Engine) : Prop where
  seed_valid : seedValid e.seed e.width
  taps_valid : tapsValid e.taps e.width
  register_range : e.register < 2 ^ e.width
  register_traced : e.register = (nextValue e.width e.taps)^[e.stepCount] e.seed

/-- The invariant of the machine: its Engine, where there is one, is good. -/
def State.Inv (s : State) : Prop := ∀ e, s.block.engine? = some e → e.Good

/-- The command `i`, performed in `s`, leaves `t` and is answered `r`: one response, added after the earlier ones (R47),
and nothing the host has yet to do is touched. -/
def Answers (i : Instr) (s t : State) (r : Response) : Prop :=
  exec i s = .next t ∧ t.responses = s.responses ++ [r] ∧ t.events = s.events

/-- The block with its step count set to 0: what remains when nothing reads the count (R20). -/
def Block.forgetCount : Block → Block
  | .unconfigured => .unconfigured
  | .ready e => .ready { e with stepCount := 0 }
  | .faulted e => .faulted { e with stepCount := 0 }

/-- An instance with the maxima `lim` can hold this Engine: every value fits `W_MAX` bits (R8, R43). -/
def Engine.Fits (lim : Config.Limits) (e : Engine) : Prop :=
  e.width ≤ lim.wMax ∧ e.seed < 2 ^ lim.wMax ∧ e.taps < 2 ^ lim.wMax ∧ e.register < 2 ^ lim.wMax

end Sys2Proof.Machine
end

