-- ==== Sys2Proof/Certificates/Slice0/Obligations.lean ====
section
/-! DEFINITION. The statements for the provers, from the spec's numbered rules. -/

open Sys2Proof Sys2Proof.Machine

/-! ### Encoding -/

/-- R42 to R46: four records written out from the formats decode to the commands they stand for (that a record is a list
of typed fields is the model's form of it, log entry 3). -/
def Obligations.CommandRecordsDecode : Prop :=
  decode ⟨0b00#2, [.num 537, .num 10, .num 129]⟩ = .ok (.init 537 10 129) ∧
  decode ⟨0b01#2, []⟩ = .ok .step ∧
  decode ⟨0b10#2, [.num 512]⟩ = .ok (.run 512) ∧
  decode ⟨0b11#2, [.bits [true, true, false], .bits [true, false, true, true]]⟩ =
    .ok (.xor [true, true, false] [true, false, true, true])

/-- Every command, with every operand, is read back from its record; ENCRYPT and DECRYPT as the XOR they stand for
(R55). -/
def Obligations.DecodeInvertsEncode : Prop :=
  ∀ i : Instr, decode (encode i) = .ok i.expand

/-- A record decodes to a command exactly when it is that command's record and the command is one of the four of R42:
no record has two meanings and no pseudo-command is ever decoded. -/
def Obligations.DecodeAcceptsExactlyTheFormats : Prop :=
  ∀ (c : CommandRecord) (i : Instr), decode c = .ok i ↔ (i.expand = i ∧ encode i = c)

/-- Each of the four opcode words, with zero operands, decodes and is performed by the very next step (presenting a word
is the model's choice, log entries 1 and 3). -/
def Obligations.TableWordRunsNext : Prop :=
  ∀ (s : State) (w : Nat), w < 4 →
    ∃ i, decodeTableWord 8 w = some i ∧ step (s.withFetchWord 8 w) = exec i s

/-! ### The step around a command -/

/-- A step takes the host's next command and performs it in the state that no longer holds it (the list of events is the
model's, log entry 1). -/
def Obligations.StepRunsDecodedCommand : Prop :=
  ∀ (s : State) (c : CommandRecord) (rest : List HostEvent) (i : Instr),
    s.events = .command c :: rest → decode c = .ok i → step s = exec i { s with events := rest }

/-- The reset event makes the block UNCONFIGURED, discards its Engine, answers nothing and does nothing else (that reset
stands among the host's events is the model's choice, log entry 4). -/
def Obligations.ResetEventDiscardsEngine : Prop :=
  ∀ (s : State) (rest : List HostEvent), s.events = .reset :: rest →
    step s = .next { s with block := .unconfigured, events := rest } ∧
    Block.mode .unconfigured = .unconfigured ∧ Block.engine? .unconfigured = none

/-- With nothing presented the block is idle and keeps its state (the event list is the model's, log entry 1). -/
def Obligations.IdleBlockKeepsState : Prop :=
  ∀ s : State, s.events = [] → step s = .next s

/-- A record of none of the formats is refused by name (log entry 3: the interface cannot present one). -/
def Obligations.MalformedRecordRefused : Prop :=
  ∀ (s : State) (c : CommandRecord) (rest : List HostEvent) (why : DecodeError),
    s.events = .command c :: rest → decode c = .error why → step s = .refused (.malformedCommand why)

/-- Right after reset there is no Engine, and a block without one answers STEP and RUN with `NotReady`, a legal INIT
with `OK` and XOR as ever. -/
def Obligations.BlockAfterResetAnswers : Prop :=
  State.reset.mode = .unconfigured ∧ State.reset.block.engine? = none ∧
  ∀ s : State, s.block = State.reset.block →
    exec .step s = .next { s with responses := s.responses ++ [⟨.notReady, .none⟩] } ∧
    (∀ c, exec (.run c) s = .next { s with responses := s.responses ++ [⟨.notReady, .none⟩] }) ∧
    (∀ seed width taps, seedValid seed width → tapsValid taps width →
      exec (.init seed width taps) s =
        .next { s with block := .ready ⟨width, seed, taps, seed, 0⟩, responses := s.responses ++ [⟨.ok, .none⟩] }) ∧
    (∀ d k : BitSeq, d.length ≤ k.length → ∃ r : BitSeq,
      exec (.xor d k) s = .next { s with responses := s.responses ++ [⟨.ok, .result r⟩] })

/-! ### INIT -/

/-- R57: the seed test, then the taps test, then all six variables, whatever the mode; and its record. -/
def Obligations.InitFollowsPseudocode : Prop :=
  ∀ (s : State) (seed width taps : Nat),
    decode ⟨0b00#2, [.num seed, .num width, .num taps]⟩ = .ok (.init seed width taps) ∧
    ((seed = 0 ∨ 2 ^ width ≤ seed) →
      exec (.init seed width taps) s = .next { s with responses := s.responses ++ [⟨.invalidSeed, .none⟩] }) ∧
    (¬ (seed = 0 ∨ 2 ^ width ≤ seed) →
      ((∀ t, bitAt taps t = false) ∨ ∃ t, bitAt taps t = true ∧ width ≤ t) →
      exec (.init seed width taps) s = .next { s with responses := s.responses ++ [⟨.invalidConfig, .none⟩] }) ∧
    (¬ (seed = 0 ∨ 2 ^ width ≤ seed) →
      ¬ ((∀ t, bitAt taps t = false) ∨ ∃ t, bitAt taps t = true ∧ width ≤ t) →
      exec (.init seed width taps) s =
        .next { s with
          block := .ready { width := width, seed := seed, taps := taps, register := seed, stepCount := 0 }
          responses := s.responses ++ [⟨.ok, .none⟩] })

/-- INIT answers `OK` exactly when both validity predicates hold, `InvalidSeed` exactly when the first fails,
`InvalidConfig` exactly when the first holds and the second fails; width 0 is always `InvalidSeed`. -/
def Obligations.InitStatusClosedForm : Prop :=
  ∀ (s : State) (seed width taps : Nat), ∃ t st, Answers (.init seed width taps) s t ⟨st, .none⟩ ∧
    (st = .ok ↔ seedValid seed width ∧ tapsValid taps width) ∧
    (st = .invalidSeed ↔ ¬ seedValid seed width) ∧
    (st = .invalidConfig ↔ seedValid seed width ∧ ¬ tapsValid taps width) ∧
    (width = 0 → st = .invalidSeed)

/-- The mask form of INIT's conditions: the seed and the mask are both nonzero and below 2^width. -/
def Obligations.InitAcceptsNonzeroMasksBelowWidth : Prop :=
  ∀ (s : State) (seed width taps : Nat),
    (exec (.init seed width taps) s =
      .next { s with block := .ready ⟨width, seed, taps, seed, 0⟩, responses := s.responses ++ [⟨.ok, .none⟩] }) ↔
    (1 ≤ seed ∧ seed < 2 ^ width ∧ 1 ≤ taps ∧ taps < 2 ^ width)

/-- R59: a failed INIT changes no variable; a successful one leaves the same block from every state, with the same
answer as after reset. -/
def Obligations.InitReplacesOrKeepsEngine : Prop :=
  ∀ (s s' : State) (seed width taps : Nat), ∃ t t' r,
    Answers (.init seed width taps) s t r ∧ Answers (.init seed width taps) s' t' r ∧
    (r.status ≠ .ok → t.block = s.block) ∧ (r.status = .ok → t.block = t'.block)

/-! ### The step functions and STEP -/

/-- R61: the feedback bit is 1 exactly when an odd number of tap positions hold 1; it is 0 on the value 0; for the
reference taps it is bit 0 XOR bit 7. -/
def Obligations.FeedbackBitIsTapParity : Prop :=
  ∀ width taps r : Nat, taps < 2 ^ width →
    (feedbackBit taps r = true ↔ (List.range width).countP (fun t => bitAt taps t && bitAt r t) % 2 = 1) ∧
    feedbackBit taps 0 = false ∧ feedbackBit 0b0010000001 r = (bitAt r 0 ^^ bitAt r 7)

/-- R62: the feedback bit of the old value enters at bit W-1, every other bit moves down by one, the value keeps W bits,
and as arithmetic it is floor(r / 2) + fb(r) * 2^(W-1); for W = 1 it is r itself. -/
def Obligations.NextValueShiftsFeedbackIn : Prop :=
  ∀ width taps r : Nat, 1 ≤ width → r < 2 ^ width →
    bitAt (nextValue width taps r) (width - 1) = feedbackBit taps r ∧
    (∀ i, i + 2 ≤ width → bitAt (nextValue width taps r) i = bitAt r (i + 1)) ∧
    nextValue width taps r < 2 ^ width ∧
    nextValue width taps r = r / 2 + (feedbackBit taps r).toNat * 2 ^ (width - 1) ∧
    (width = 1 → tapsValid taps width → nextValue width taps r = r ∧ feedbackBit taps r = bitAt r 0)

/-- R63: STEP answers `NotReady` and changes nothing unless READY; READY, it replaces `register` and `step_count`,
answers the feedback bit of the old register, and that bit is then bit W-1; and its record. -/
def Obligations.StepFollowsPseudocode : Prop :=
  decode ⟨0b01#2, []⟩ = .ok .step ∧
  ∀ s : State,
    (s.mode ≠ .ready → exec .step s = .next { s with responses := s.responses ++ [⟨.notReady, .none⟩] }) ∧
    (∀ e, s.block = .ready e →
      exec .step s =
        .next { s with
          block := .ready { e with register := nextValue e.width e.taps e.register, stepCount := e.stepCount + 1 }
          responses := s.responses ++ [⟨.ok, .bit (feedbackBit e.taps e.register)⟩] } ∧
      (e.register < 2 ^ e.width → 1 ≤ e.width →
        bitAt (nextValue e.width e.taps e.register) (e.width - 1) = feedbackBit e.taps e.register))

/-- The corner cases of STEP: a zero register stays 0 and still counts; all ones answers the parity of the number of
taps and becomes 2^W - 1 or 2^(W-1) - 1. -/
def Obligations.StepOnZeroAndAllOnes : Prop :=
  ∀ (s : State) (e : Engine), s.block = .ready e → 1 ≤ e.width → tapsValid e.taps e.width →
    (e.register = 0 → exec .step s =
      .next { s with block := .ready { e with stepCount := e.stepCount + 1 }
                     responses := s.responses ++ [⟨.ok, .bit false⟩] }) ∧
    (e.register = 2 ^ e.width - 1 →
      exec .step s =
        if (List.range e.width).countP (bitAt e.taps) % 2 = 1 then
          .next { s with block := .ready { e with stepCount := e.stepCount + 1 }
                         responses := s.responses ++ [⟨.ok, .bit true⟩] }
        else
          .next { s with block := .ready { e with register := 2 ^ (e.width - 1) - 1, stepCount := e.stepCount + 1 }
                         responses := s.responses ++ [⟨.ok, .bit false⟩] })

/-! ### RUN -/

/-- R65, R66: `NotReady` without effect unless READY; READY, RUN ends at the first recurrence with the number of steps
and the first min(period, capture_limit) feedback bits, or with `NonTerminating` past the guard; and its record. -/
def Obligations.RunFollowsPseudocode : Prop :=
  ∀ (s : State) (c : Nat),
    decode ⟨0b10#2, [.num c]⟩ = .ok (.run c) ∧
    (s.mode ≠ .ready → exec (.run c) s = .next { s with responses := s.responses ++ [⟨.notReady, .none⟩] }) ∧
    ∀ e, s.block = .ready e →
      (∀ n, e.FirstRecurrence n → n ≤ 2 ^ e.width + 1 →
        ∃ ks : BitSeq, ks.length = min n c ∧
          (∀ i : Nat, i < min n c → ks[i]? = some (feedbackBit e.taps (e.registerAfter i))) ∧
          exec (.run c) s =
            .next { s with
              block := .ready { e with register := e.registerAfter n, stepCount := e.stepCount + n }
              responses := s.responses ++ [⟨.ok, .run n ks⟩] }) ∧
      ((∀ k, 1 ≤ k → k ≤ 2 ^ e.width + 1 → e.registerAfter k ≠ e.seed) →
        exec (.run c) s =
          .next { s with
            block := .faulted { e with
              register := e.registerAfter (2 ^ e.width + 1), stepCount := e.stepCount + (2 ^ e.width + 1) }
            responses := s.responses ++ [⟨.nonTerminating, .none⟩] })

/-- R67: `NonTerminating` is answered exactly when the first 2^W + 1 steps all miss the seed, with the state those steps
leave and FAULTED; and on a good Engine the guard never cuts short a RUN that would recur at all. -/
def Obligations.GuardNeverCutsShortARecurrence : Prop :=
  ∀ (s : State) (e : Engine) (c : Nat), s.block = .ready e →
    ((∃ t, Answers (.run c) s t ⟨.nonTerminating, .none⟩) ↔
      ∀ k, 1 ≤ k → k ≤ 2 ^ e.width + 1 → e.registerAfter k ≠ e.seed) ∧
    (∀ t, Answers (.run c) s t ⟨.nonTerminating, .none⟩ → t.block = .faulted (e.after (2 ^ e.width + 1))) ∧
    (e.Good → ∀ k, 1 ≤ k → e.registerAfter k = e.seed →
      ∃ t p ks, Answers (.run c) s t ⟨.ok, .run p ks⟩ ∧ p ≤ k ∧ p ≤ 2 ^ e.width - 1)

/-- A RUN of a good Engine that ends `OK` made at most 2^W - 1 steps, and the values it visited are pairwise different
and none is 0. -/
def Obligations.PeriodBoundedByNonzeroStates : Prop :=
  ∀ (s t : State) (e : Engine) (c p : Nat) (ks : BitSeq), s.block = .ready e → e.Good →
    Answers (.run c) s t ⟨.ok, .run p ks⟩ →
    1 ≤ p ∧ p ≤ 2 ^ e.width - 1 ∧
    (∀ i, i < p → e.registerAfter i ≠ 0) ∧
    (∀ i j, i < j → j < p → e.registerAfter i ≠ e.registerAfter j)

/-- RUN after STEP commands: with `p` the period from the seed, `k` steps and then RUN answers p - (k mod p), and the
Engine stands at the seed again. (Position 0 among the taps is enough for such a `p` to exist; it is not needed here.) -/
def Obligations.RunAfterStepsMeasuresDistanceToSeed : Prop :=
  ∀ (s : State) (e : Engine) (c p k : Nat), e.Good → e.register = e.seed →
    e.FirstRecurrence p → s.block = .ready (e.after k) →
    ∃ t ks, Answers (.run c) s t ⟨.ok, .run (p - k % p) ks⟩ ∧
      t.block = .ready { e with stepCount := e.stepCount + k + (p - k % p) }

/-- R69: a command's answer and the next block are functions of the block and the operands alone; and two `RUN c` in a
row, the first starting at the seed and ending `OK`, answer the same. -/
def Obligations.ResponsesAreDeterminedAndRunRepeats : Prop :=
  (∀ (i : Instr) (s s' : State), s.block = s'.block →
    ∃ t t' r, Answers i s t r ∧ Answers i s' t' r ∧ t.block = t'.block) ∧
  (∀ (s t : State) (e : Engine) (c p : Nat) (ks : BitSeq), s.block = .ready e → e.register = e.seed →
    Answers (.run c) s t ⟨.ok, .run p ks⟩ → ∃ u, Answers (.run c) t u ⟨.ok, .run p ks⟩)

/-- RUN is STEP repeated: after a RUN that ends `OK` with period p, the block is the one p STEP commands leave, and the
captured keystream is what the first of them answer. -/
def Obligations.RunIsRepeatedStep : Prop :=
  ∀ (s t : State) (c p : Nat) (ks : BitSeq) (f : Nat → State) (z : Nat → Bit),
    Answers (.run c) s t ⟨.ok, .run p ks⟩ → f 0 = s →
    (∀ k, k < p → Answers .step (f k) (f (k + 1)) ⟨.ok, .bit (z k)⟩) →
    t.block = (f p).block ∧ ks = (List.range (min p c)).map z

/-- Nothing reads `step_count`: two blocks that differ in it alone answer every command alike and stay alike. -/
def Obligations.StepCountIsUnread : Prop :=
  ∀ (i : Instr) (s s' : State), s.block.forgetCount = s'.block.forgetCount →
    ∃ t t' r, Answers i s t r ∧ Answers i s' t' r ∧ t.block.forgetCount = t'.block.forgetCount

/-! ### Laws of the Engine -/

/-- The linear recurrence: after a successful INIT, with z k the bit of step k + 1, each register bit is a keystream
bit or a seed bit, each later keystream bit is the exclusive or of the tapped earlier ones, and the first W bits take
the seed where no keystream bit reaches. -/
def Obligations.KeystreamObeysLinearRecurrence : Prop :=
  ∀ seed width taps : Nat, seedValid seed width → tapsValid taps width →
    let e := Engine.fresh seed width taps
    (∀ k i, i < width →
      bitAt (e.registerAfter k) i = if width ≤ k + i then e.bitAfter (k + i - width) else bitAt seed (i + k)) ∧
    (∀ k, width ≤ k → e.bitAfter k = xorOver (tapPositions taps) (fun t => e.bitAfter (k - (width - t)))) ∧
    (∀ k, k < width → e.bitAfter k = xorOver (tapPositions taps)
      (fun t => if t + k ≤ width - 1 then bitAt seed (t + k) else e.bitAfter (k - (width - t))))

/-- The step is reversible exactly with position 0 among the taps: then it is a bijection of the W-bit values with the
stated inverse and every value lies on a cycle; without it two values meet and some nonzero value has no predecessor. -/
def Obligations.NextValueReversibleExactlyWithTapZero : Prop :=
  ∀ width taps : Nat, tapsValid taps width →
    (bitAt taps 0 = true →
      Set.BijOn (nextValue width taps) (Set.Iio (2 ^ width)) (Set.Iio (2 ^ width)) ∧
      (∀ r, r < 2 ^ width →
        (∀ i, 1 ≤ i → i < width → bitAt r i = bitAt (nextValue width taps r) (i - 1)) ∧
        bitAt r 0 = (bitAt (nextValue width taps r) (width - 1) ^^
          xorOver ((tapPositions taps).filter (· != 0)) (fun t => bitAt (nextValue width taps r) (t - 1))) ∧
        ∃ n, 1 ≤ n ∧ (nextValue width taps)^[n] r = r)) ∧
    (bitAt taps 0 = false →
      (∀ r, nextValue width taps (r ^^^ 1) = nextValue width taps r) ∧
      ∃ v, 0 < v ∧ v < 2 ^ width ∧ ∀ r, r < 2 ^ width → nextValue width taps r ≠ v)

/-- With position 0 a tap, RUN on any good READY Engine, wherever STEPs have left it, ends `OK` within 2^W - 1 steps
with the register back at the seed: `NonTerminating` is unreachable. -/
def Obligations.TapZeroRunAlwaysEndsOk : Prop :=
  ∀ (s : State) (e : Engine) (c : Nat), s.block = .ready e → e.Good → bitAt e.taps 0 = true →
    ∃ p, 1 ≤ p ∧ p ≤ 2 ^ e.width - 1 ∧
      exec (.run c) s =
        .next { s with
          block := .ready { e with register := e.seed, stepCount := e.stepCount + p }
          responses := s.responses ++ [⟨.ok, .run p (e.bits (min p c))⟩] }

/-- Zero is absorbing: every step from 0 gives 0 and returns 0, a zero seed is refused, and a good READY Engine whose
register is 0 has no tap at 0, keeps 0 and can only end its RUN with `NonTerminating`. -/
def Obligations.ZeroRegisterIsAbsorbing : Prop :=
  (∀ width taps, nextValue width taps 0 = 0 ∧ feedbackBit taps 0 = false) ∧
  (∀ (s : State) (width taps : Nat), ∃ t, Answers (.init 0 width taps) s t ⟨.invalidSeed, .none⟩) ∧
  (∀ (s : State) (e : Engine) (c : Nat), s.block = .ready e → e.Good → e.register = 0 →
    bitAt e.taps 0 = false ∧ (∀ k, e.registerAfter k = 0 ∧ e.bitAfter k = false) ∧
    ∃ t, Answers (.run c) s t ⟨.nonTerminating, .none⟩)

/-- Without position 0 among the taps, every such configuration has a legal seed, one for all states, with which INIT
answers `OK` and RUN then answers `NonTerminating` and leaves the mode FAULTED, whatever the capture limit. -/
def Obligations.NonTerminatingReachableWithoutTapZero : Prop :=
  ∀ width taps : Nat, tapsValid taps width → bitAt taps 0 = false →
    ∃ seed, seedValid seed width ∧ ∀ (s : State) (c : Nat), ∃ t u,
      Answers (.init seed width taps) s t ⟨.ok, .none⟩ ∧
      Answers (.run c) t u ⟨.nonTerminating, .none⟩ ∧ u.mode = .faulted

/-- The bit that step k + 1 drops from position 0 is bit k of the seed for the first W steps and the keystream bit of
W steps before after that. -/
def Obligations.DroppedBitsAreSeedThenKeystream : Prop :=
  ∀ seed width taps k : Nat, seedValid seed width → tapsValid taps width →
    let e := Engine.fresh seed width taps
    bitAt (e.registerAfter k) 0 = if k < width then bitAt seed k else e.bitAfter (k - width)

/-- The reference taps are maximal-length: from every legal 10-bit seed RUN answers period 1023, and one period of
keystream holds 512 ones. -/
def Obligations.ReferenceTapsHavePeriod1023 : Prop :=
  ∀ (s : State) (seed c : Nat), 1 ≤ seed → seed ≤ 1023 → ∃ t u ks,
    Answers (.init seed 10 0b0010000001) s t ⟨.ok, .none⟩ ∧
    Answers (.run c) t u ⟨.ok, .run 1023 ks⟩ ∧ ks.length = min 1023 c ∧
    (1023 ≤ c → ks.count true = 512)

/-! ### XOR, ENCRYPT, DECRYPT -/

/-- R78: the length test first and no partial result; else one bit per position of `data`, `data[i] XOR keystream[i]`,
nothing else changed; and its record. -/
def Obligations.XorFollowsPseudocode : Prop :=
  ∀ (s : State) (d k : BitSeq),
    decode ⟨0b11#2, [.bits d, .bits k]⟩ = .ok (.xor d k) ∧
    (k.length < d.length →
      exec (.xor d k) s = .next { s with responses := s.responses ++ [⟨.keystreamExhausted, .none⟩] }) ∧
    (¬ k.length < d.length → ∃ r : BitSeq, r.length = d.length ∧
      (∀ (i : Nat) (x y : Bit), d[i]? = some x → k[i]? = some y → r[i]? = some (x ^^ y)) ∧
      exec (.xor d k) s = .next { s with responses := s.responses ++ [⟨.ok, .result r⟩] })

/-- R55: ENCRYPT and DECRYPT expand to XOR, have XOR's record and no opcode of their own, and are performed exactly as
XOR; no other command is a pseudo-command. -/
def Obligations.EncryptAndDecryptAreXor : Prop :=
  (∀ (s : State) (d k : BitSeq),
    (Instr.encrypt d k).expand = .xor d k ∧ (Instr.decrypt d k).expand = .xor d k ∧
    exec (.encrypt d k) s = exec (.xor d k) s ∧ exec (.decrypt d k) s = exec (.xor d k) s ∧
    encode (.encrypt d k) = encode (.xor d k) ∧ encode (.decrypt d k) = encode (.xor d k)) ∧
  ∀ i : Instr, i.expand ≠ i → ∃ d k : BitSeq, i = .encrypt d k ∨ i = .decrypt d k

/-- ENCRYPT with a keystream that is long enough answers a ciphertext as long as the plaintext and changes nothing else;
DECRYPT of it with the same keystream, in any state, answers the plaintext. -/
def Obligations.DecryptUndoesEncrypt : Prop :=
  ∀ p k : BitSeq, p.length ≤ k.length → ∃ cipher : BitSeq, cipher.length = p.length ∧
    (∀ (i : Nat) (x y : Bit), p[i]? = some x → k[i]? = some y → cipher[i]? = some (x ^^ y)) ∧
    ∀ s : State,
      exec (.encrypt p k) s = .next { s with responses := s.responses ++ [⟨.ok, .result cipher⟩] } ∧
      exec (.decrypt cipher k) s = .next { s with responses := s.responses ++ [⟨.ok, .result p⟩] }

/-- R81: XOR twice with the same keystream gives the data back exactly, in whatever states the two are performed. -/
def Obligations.XorIsInvolution : Prop :=
  ∀ (s s' : State) (p k : BitSeq), p.length ≤ k.length → ∃ t t' r,
    Answers (.xor p k) s t ⟨.ok, .result r⟩ ∧ Answers (.xor r k) s' t' ⟨.ok, .result p⟩

/-- Only the first len(data) keystream bits are read: two keystreams that reach that far and agree there are performed
alike, and empty data is always `OK` with an empty result. -/
def Obligations.XorReadsOnlyItsPrefix : Prop :=
  ∀ (s : State) (d k k' : BitSeq), d.length ≤ k.length → d.length ≤ k'.length →
    k.take d.length = k'.take d.length →
    exec (.xor d k) s = exec (.xor d k') s ∧
    exec (.xor [] k) s = .next { s with responses := s.responses ++ [⟨.ok, .result []⟩] }

/-- R83: XOR leaves the block as it is and answers the same whatever the block: only its operands are read. -/
def Obligations.XorIsIndependentOfTheEngine : Prop :=
  ∀ (s : State) (b : Block) (d k : BitSeq), ∃ t r,
    Answers (.xor d k) s t r ∧ t.block = s.block ∧ exec (.xor d k) { s with block := b } = .next { t with block := b }

/-- The exhaustion boundary: one bit short fails, equal lengths succeed. -/
def Obligations.XorExhaustionBoundary : Prop :=
  ∀ (s : State) (d k : BitSeq),
    (k.length + 1 = d.length → ∃ t, Answers (.xor d k) s t ⟨.keystreamExhausted, .none⟩) ∧
    (k.length = d.length → ∃ t r, Answers (.xor d k) s t ⟨.ok, .result r⟩)

/-! ### Rules of the whole machine -/

/-- R49: every command, in every state, is answered once, with a response that stands in its rows of the table. -/
def Obligations.EveryCommandAnswersInItsRow : Prop :=
  ∀ (i : Instr) (s : State), ∃ t r, Answers i s t r ∧ r.inRow i = true

/-- R94: an error carries no payload and leaves the block as it was, but for `NonTerminating`, where the 2^W + 1 steps
stay and the mode is FAULTED. -/
def Obligations.ErrorsKeepTheBlockExceptNonTerminating : Prop :=
  ∀ (i : Instr) (s t : State) (r : Response), Answers i s t r → r.status ≠ .ok →
    r.payload = .none ∧ (r.status ≠ .nonTerminating → t.block = s.block) ∧
    (r.status = .nonTerminating → ∃ e, s.block = .ready e ∧ t.block = .faulted (e.after (2 ^ e.width + 1)))

/-- R87, R88, R90: which operands raise `InvalidSeed`, `KeystreamExhausted`, `InvalidConfig`, over all commands, and that
none of the three changes the block. -/
def Obligations.OperandErrorsRaisedExactly : Prop :=
  ∀ (i : Instr) (s t : State) (r : Response), Answers i s t r →
    (r.status = .invalidSeed ↔ ∃ seed width taps, i = .init seed width taps ∧ (seed = 0 ∨ 2 ^ width ≤ seed)) ∧
    (r.status = .invalidConfig ↔ ∃ seed width taps, i = .init seed width taps ∧ ¬ (seed = 0 ∨ 2 ^ width ≤ seed) ∧
      ((∀ j, bitAt taps j = false) ∨ ∃ j, bitAt taps j = true ∧ width ≤ j)) ∧
    (r.status = .keystreamExhausted ↔ ∃ d k : BitSeq, i.expand = .xor d k ∧ k.length < d.length) ∧
    (r.status = .invalidSeed ∨ r.status = .invalidConfig ∨ r.status = .keystreamExhausted →
      t.block = s.block ∧ r.payload = .none)

/-- R91: `NotReady` is answered by STEP and RUN exactly when the mode is not READY, with no state change, and by no
other command. -/
def Obligations.NotReadyRaisedExactly : Prop :=
  ∀ (i : Instr) (s t : State) (r : Response), Answers i s t r →
    (r.status = .notReady ↔ (i = .step ∨ ∃ c, i = .run c) ∧ s.mode ≠ .ready) ∧
    (r.status = .notReady → t.block = s.block)

/-- The mode changes only so (the list of events is the model's, log entries 1 and 4): a reset event makes it UNCONFIGURED, a successful INIT makes it READY, a RUN that answers
`NonTerminating` takes READY to FAULTED. -/
def Obligations.ModeChangesOnlyAsListed : Prop :=
  ∀ s t : State, step s = .next t → t.mode ≠ s.mode →
    (∃ rest, s.events = .reset :: rest ∧ t.mode = .unconfigured) ∨
    ∃ c rest i r, s.events = .command c :: rest ∧ decode c = .ok i ∧ t.responses = s.responses ++ [r] ∧
      ((∃ seed width taps, i = .init seed width taps ∧ r.status = .ok ∧ t.mode = .ready) ∨
       (∃ cl, i = .run cl ∧ r.status = .nonTerminating ∧ s.mode = .ready ∧ t.mode = .faulted))

/-- A FAULTED Engine stays exactly as it is under every command but a successful INIT, and STEP and RUN answer
`NotReady` meanwhile. -/
def Obligations.FaultedEngineStaysUntilInit : Prop :=
  ∀ (i : Instr) (s t : State) (r : Response) (e : Engine), s.block = .faulted e → Answers i s t r →
    (t.block = .faulted e ∨ (r.status = .ok ∧ ∃ seed width taps,
      i = .init seed width taps ∧ t.block = .ready ⟨width, seed, taps, seed, 0⟩)) ∧
    ((i = .step ∨ ∃ c, i = .run c) → r = ⟨.notReady, .none⟩)

/-- What STEP and RUN leave: `W`, `seed` and `taps`, the host's events, and the earlier responses; XOR and its aliases
leave the whole block. -/
def Obligations.CommandFrames : Prop :=
  ∀ (i : Instr) (s t : State), exec i s = .next t →
    t.events = s.events ∧ t.responses.dropLast = s.responses ∧
    ((i = .step ∨ ∃ c, i = .run c) →
      (s.block.engine? = none → t.block = s.block) ∧
      ∀ e, s.block.engine? = some e → ∃ e', t.block.engine? = some e' ∧
        e'.width = e.width ∧ e'.seed = e.seed ∧ e'.taps = e.taps) ∧
    ((∃ d k : BitSeq, i.expand = .xor d k) → t.block = s.block)

/-- The state after reset meets the invariant. -/
def Obligations.ResetStateIsGood : Prop := State.reset.Inv

/-- The invariant, kept by every step from every state: a legal seed and tap set, a register of W bits, and that register
the `step_count`-fold next value of the seed. -/
def Obligations.StepKeepsGoodEngine : Prop :=
  ∀ s t : State, s.Inv → step s = .next t → t.Inv

/-- With position 0 a tap the register of a good Engine is never 0; without it, it can be: W = 3, taps = {1}, seed = 1
gives 0 after one step. -/
def Obligations.RegisterNonzeroWithTapZero : Prop :=
  (∀ (s : State) (e : Engine), s.Inv → s.block.engine? = some e → bitAt e.taps 0 = true → e.register ≠ 0) ∧
  (Engine.fresh 1 3 2).Good ∧ ((Engine.fresh 1 3 2).after 1).Good ∧ (Engine.fresh 1 3 2).registerAfter 1 = 0

/-- An instance with the maxima `lim` never needs more than it has: from a good Engine that fits, a command that can be
presented leaves one that fits, and the sequences it answers are within the maxima. -/
def Obligations.InstanceMaximaSuffice : Prop :=
  ∀ (lim : Config.Limits) (i : Instr) (s t : State) (r : Response), i.wellFormed lim = true → s.Inv →
    (∀ e, s.block.engine? = some e → e.Fits lim) → Answers i s t r →
    (∀ e, t.block.engine? = some e → e.Fits lim) ∧
    (∀ p ks, r.payload = .run p ks → ks.length ≤ lim.capMax) ∧
    (∀ bits, r.payload = .result bits → bits.length ≤ lim.dataMax)

/-- The normal session, from every state: after a legal INIT with position 0 tapped, RUN delivers a keystream K of
min(period, capture_limit) bits; ENCRYPT with K answers a ciphertext and DECRYPT of it with K answers the plaintext. -/
def Obligations.SessionRecoversPlaintext : Prop :=
  ∀ seed width taps cap : Nat, seedValid seed width → tapsValid taps width → bitAt taps 0 = true →
    ∃ (period : Nat) (key : BitSeq), 1 ≤ period ∧ period ≤ 2 ^ width - 1 ∧ key.length = min period cap ∧
      ∀ plain : BitSeq, plain.length ≤ key.length → ∃ cipher : BitSeq, cipher.length = plain.length ∧
        ∀ (s : State) (rest : List HostEvent),
          s.events = .command (encode (.init seed width taps)) :: .command (encode (.run cap)) ::
            .command (encode (.encrypt plain key)) :: .command (encode (.decrypt cipher key)) :: rest →
          Sys2Proof.core.run 4 s =
            .next { block := .ready ⟨width, seed, taps, seed, period⟩
                    events := rest
                    responses := s.responses ++ [⟨.ok, .none⟩, ⟨.ok, .run period key⟩, ⟨.ok, .result cipher⟩,
                      ⟨.ok, .result plain⟩] }
end

