-- ==== Sys2Proof/Laws/Operands.lean ====
section
/-! SUPPORT. What the operand forms say: the set of a mask, INIT's two tests in closed form, the bits of XOR's result. -/

namespace Sys2Proof.Machine

/-- R50: a position is in the set exactly when the mask has its bit. -/
@[simp] theorem mem_tapPositions {mask t : Nat} : t ∈ tapPositions mask ↔ bitAt mask t = true := by
  simp only [tapPositions, List.mem_filter, List.mem_range, bitAt, and_iff_right_iff_imp]
  intro h
  have hle : 2 ^ t ≤ mask := Nat.ge_two_pow_of_testBit h
  have hne : mask ≠ 0 := by have := Nat.two_pow_pos t; omega
  exact Nat.lt_succ_of_le ((Nat.le_log2 hne).2 hle)

/-- R18: a set names no position twice. -/
theorem tapPositions_nodup (mask : Nat) : (tapPositions mask).Nodup := List.nodup_range.filter _

theorem exists_bitAt_iff {mask : Nat} : (∃ t, bitAt mask t = true) ↔ mask ≠ 0 := by
  constructor
  · rintro ⟨t, ht⟩ rfl
    simp [bitAt] at ht
  · exact Nat.exists_testBit_of_ne_zero

theorem bits_below_iff {mask width : Nat} : (∀ t, bitAt mask t = true → t < width) ↔ mask < 2 ^ width := by
  constructor
  · intro h
    refine Nat.lt_pow_two_of_testBit mask fun i hi => ?_
    by_contra hb
    have := h i (by simpa [bitAt] using hb)
    omega
  · intro h t ht
    by_contra hlt
    have := Nat.testBit_lt_two_pow (Nat.lt_of_lt_of_le h (Nat.pow_le_pow_right (by norm_num) (not_lt.1 hlt)))
    simp [bitAt, this] at ht

/-- R57: the taps test passes exactly on the sets INIT accepts. -/
theorem tapsTestFails_eq_false {taps width : Nat} :
    tapsTestFails taps width = false ↔ (∃ t, bitAt taps t = true) ∧ ∀ t, bitAt taps t = true → t < width := by
  simp only [tapsTestFails, Bool.or_eq_false_iff, List.isEmpty_eq_false_iff_exists_mem, mem_tapPositions,
    List.any_eq_false, decide_eq_true_eq, not_le]

theorem tapsTestFails_eq_true {taps width : Nat} :
    tapsTestFails taps width = true ↔ (∀ t, bitAt taps t = false) ∨ ∃ t, bitAt taps t = true ∧ width ≤ t := by
  rw [← not_iff_not, Bool.not_eq_true, tapsTestFails_eq_false]
  simp

/-- R57: the seed test passes exactly on the seeds INIT accepts. -/
theorem seedTestFails_eq_false {seed width : Nat} :
    seedTestFails seed width = false ↔ 1 ≤ seed ∧ seed < 2 ^ width := by
  simp [seedTestFails, Nat.one_le_iff_ne_zero]

theorem seedTestFails_eq_true {seed width : Nat} :
    seedTestFails seed width = true ↔ seed = 0 ∨ 2 ^ width ≤ seed := by
  simp [seedTestFails]

/-- R57, R58: the tests of INIT are the closed-form predicates. -/
theorem seedValid_iff {seed width : Nat} : seedValid seed width ↔ seedTestFails seed width = false := by
  rw [seedTestFails_eq_false]
  have := Nat.two_pow_pos width
  unfold seedValid
  omega

theorem tapsValid_iff {taps width : Nat} : tapsValid taps width ↔ tapsTestFails taps width = false :=
  tapsTestFails_eq_false.symm

/-- R58: a legal tap set needs a register of at least one bit. -/
theorem width_pos_of_tapsValid {taps width : Nat} (h : tapsValid taps width) : 1 ≤ width := by
  obtain ⟨⟨t, ht⟩, hlt⟩ := h
  exact Nat.one_le_of_lt (hlt t ht)

theorem lt_two_pow_of_seedValid {seed width : Nat} (h : seedValid seed width) : seed < 2 ^ width := by
  have := Nat.two_pow_pos width
  unfold seedValid at h
  omega

/-- R82: the result is as long as the data where the keystream reaches that far. -/
theorem xorBits_length {d k : BitSeq} (h : d.length ≤ k.length) : (xorBits d k).length = d.length := by
  simp [xorBits, h]

/-- R78: element `i` of the result. -/
theorem xorBits_getElem? {d k : BitSeq} {i : Nat} {x y : Bit} (hx : d[i]? = some x) (hy : k[i]? = some y) :
    (xorBits d k)[i]? = some (x ^^ y) := by
  simp [xorBits, List.getElem?_zipWith, hx, hy]

/-- R81 on sequences: the same keystream twice gives the data back. -/
theorem xorBits_xorBits : ∀ {d k : BitSeq}, d.length ≤ k.length → xorBits (xorBits d k) k = d
  | [], _, _ => by simp [xorBits]
  | _ :: _, [], h => by simp at h
  | x :: d, y :: k, h => by
    have ih : xorBits (xorBits d k) k = d := xorBits_xorBits (by simpa using h)
    simp only [xorBits, List.zipWith_cons_cons] at ih ⊢
    rw [ih, Bool.xor_assoc, Bool.xor_self, Bool.xor_false]

end Sys2Proof.Machine
end

