-- ==== Sys2Proof/Laws/State.lean ====
section
/-! SUPPORT. One lemma per field per update of State and Engine. -/

namespace Sys2Proof.Machine

variable (s : State) (b : Block) (st : Status) (p : Payload) (e : Engine) (c : CommandRecord)

@[simp] theorem State.withBlock_block : (s.withBlock b).block = b := rfl
@[simp] theorem State.withBlock_events : (s.withBlock b).events = s.events := rfl
@[simp] theorem State.withBlock_responses : (s.withBlock b).responses = s.responses := rfl

@[simp] theorem State.respond_block : (s.respond st p).block = s.block := rfl
@[simp] theorem State.respond_events : (s.respond st p).events = s.events := rfl
@[simp] theorem State.respond_responses : (s.respond st p).responses = s.responses ++ [⟨st, p⟩] := rfl

@[simp] theorem State.raise_block : (s.raise st).block = s.block := rfl
@[simp] theorem State.raise_events : (s.raise st).events = s.events := rfl
@[simp] theorem State.raise_responses : (s.raise st).responses = s.responses ++ [⟨st, .none⟩] := rfl

@[simp] theorem State.resetBlock_block : s.resetBlock.block = .unconfigured := rfl
@[simp] theorem State.resetBlock_events : s.resetBlock.events = s.events := rfl
@[simp] theorem State.resetBlock_responses : s.resetBlock.responses = s.responses := rfl

@[simp] theorem State.presentNext_block : (s.presentNext c).block = s.block := rfl
@[simp] theorem State.presentNext_events : (s.presentNext c).events = .command c :: s.events := rfl
@[simp] theorem State.presentNext_responses : (s.presentNext c).responses = s.responses := rfl

@[simp] theorem State.xorCombine_block (d k : BitSeq) : (s.xorCombine d k).block = s.block := by
  unfold State.xorCombine; split <;> rfl
@[simp] theorem State.xorCombine_events (d k : BitSeq) : (s.xorCombine d k).events = s.events := by
  unfold State.xorCombine; split <;> rfl

@[simp] theorem Block.mode_unconfigured : Block.mode .unconfigured = .unconfigured := rfl
@[simp] theorem Block.mode_ready : (Block.ready e).mode = .ready := rfl
@[simp] theorem Block.mode_faulted : (Block.faulted e).mode = .faulted := rfl
@[simp] theorem Block.engine?_unconfigured : Block.engine? .unconfigured = none := rfl
@[simp] theorem Block.engine?_ready : (Block.ready e).engine? = some e := rfl
@[simp] theorem Block.engine?_faulted : (Block.faulted e).engine? = some e := rfl

@[simp] theorem Engine.advance_width : e.advance.width = e.width := rfl
@[simp] theorem Engine.advance_seed : e.advance.seed = e.seed := rfl
@[simp] theorem Engine.advance_taps : e.advance.taps = e.taps := rfl
@[simp] theorem Engine.advance_register : e.advance.register = nextValue e.width e.taps e.register := rfl
@[simp] theorem Engine.advance_stepCount : e.advance.stepCount = e.stepCount + 1 := rfl

@[simp] theorem Engine.fresh_width (x w m : Nat) : (Engine.fresh x w m).width = w := rfl
@[simp] theorem Engine.fresh_seed (x w m : Nat) : (Engine.fresh x w m).seed = x := rfl
@[simp] theorem Engine.fresh_taps (x w m : Nat) : (Engine.fresh x w m).taps = m := rfl
@[simp] theorem Engine.fresh_register (x w m : Nat) : (Engine.fresh x w m).register = x := rfl
@[simp] theorem Engine.fresh_stepCount (x w m : Nat) : (Engine.fresh x w m).stepCount = 0 := rfl

theorem State.takeEvent_nil (h : s.events = []) : s.takeEvent = none := by simp [State.takeEvent, h]
theorem State.takeEvent_cons {ev : HostEvent} {rest : List HostEvent} (h : s.events = ev :: rest) :
    s.takeEvent = some (ev, { s with events := rest }) := by simp [State.takeEvent, h]

end Sys2Proof.Machine
end

