-- ==== Sys2Proof/Laws/Engine.lean ====
section
/-! SUPPORT. The step functions bit by bit, the Engine after k steps, and the two ways RUN's loop ends. -/

namespace Sys2Proof.Machine

/-! ### The exclusive or over a list of positions -/

@[simp] theorem xorOver_nil (f : Nat → Bit) : xorOver [] f = false := rfl

theorem foldl_xor_start (ts : List Nat) (f : Nat → Bit) (b : Bit) :
    ts.foldl (fun acc t => acc ^^ f t) b = (b ^^ xorOver ts f) := by
  induction ts generalizing b with
  | nil => simp
  | cons t ts ih => simp only [xorOver, List.foldl_cons] at ih ⊢; rw [ih, ih (false ^^ f t)]; simp

@[simp] theorem xorOver_cons (t : Nat) (ts : List Nat) (f : Nat → Bit) : xorOver (t :: ts) f = (f t ^^ xorOver ts f) := by
  simp only [xorOver, List.foldl_cons]
  rw [foldl_xor_start ts f, Bool.false_xor]; rfl

theorem xorOver_congr {ts : List Nat} {f g : Nat → Bit} (h : ∀ t ∈ ts, f t = g t) : xorOver ts f = xorOver ts g := by
  induction ts with
  | nil => rfl
  | cons t ts ih =>
    rw [xorOver_cons, xorOver_cons, h t List.mem_cons_self, ih fun u hu => h u (List.mem_cons_of_mem _ hu)]

@[simp] theorem xorOver_false (ts : List Nat) : xorOver ts (fun _ => false) = false := by
  induction ts with
  | nil => rfl
  | cons t ts ih => simpa using ih

/-- R11: the order of the positions is irrelevant. -/
theorem xorOver_perm {ts us : List Nat} (h : ts.Perm us) (f : Nat → Bit) : xorOver ts f = xorOver us f := by
  induction h with
  | nil => rfl
  | cons t _ ih => rw [xorOver_cons, xorOver_cons, ih]
  | swap t u l => simp only [xorOver_cons]; rw [← Bool.xor_assoc, ← Bool.xor_assoc, Bool.xor_comm (f u)]
  | trans _ _ ih₁ ih₂ => exact ih₁.trans ih₂

/-- The exclusive or is the parity of the positions that hold 1. -/
theorem xorOver_eq_parity (ts : List Nat) (f : Nat → Bit) : xorOver ts f = decide (ts.countP f % 2 = 1) := by
  induction ts with
  | nil => rfl
  | cons t ts ih =>
    rw [xorOver_cons, ih, List.countP_cons]
    cases f t
    · simp
    · rcases Nat.mod_two_eq_zero_or_one (ts.countP f) with h | h <;> simp [h, Nat.add_mod]

/-! ### The feedback bit and the next-state value -/

@[simp] theorem bitAt_zero (i : Nat) : bitAt 0 i = false := by simp [bitAt]

theorem bitAt_eq_false_of_lt {r i : Nat} (h : r < 2 ^ i) : bitAt r i = false := Nat.testBit_lt_two_pow h

@[simp] theorem feedbackBit_zero (taps : Nat) : feedbackBit taps 0 = false := by
  rw [feedbackBit, xorOver_congr (g := fun _ => false) (fun t _ => bitAt_zero t), xorOver_false]

@[simp] theorem nextValue_zero (width taps : Nat) : nextValue width taps 0 = 0 := by simp [nextValue]

/-- R62 bit by bit: the feedback bit enters at `width - 1` over the register shifted right by one. -/
theorem bitAt_nextValue (width taps r i : Nat) :
    bitAt (nextValue width taps r) i = ((decide (i = width - 1) && feedbackBit taps r) || bitAt r (i + 1)) := by
  have hb : ∀ (b : Bit) (k : Nat), b.toNat.testBit k = (decide (k = 0) && b) := by
    intro b k; cases b <;> cases k <;> simp [Nat.testBit_succ]
  simp only [bitAt, nextValue, Nat.testBit_or, Nat.testBit_shiftLeft, Nat.testBit_shiftRight, hb, Nat.add_comm 1 i]
  by_cases h : i = width - 1
  · subst h; simp
  · have : ¬(width - 1 ≤ i ∧ i - (width - 1) = 0) := by omega
    by_cases h1 : width - 1 ≤ i
    · have h2 : ¬(i - (width - 1) = 0) := by omega
      simp [h, h2]
    · simp [h, h1]

/-- R62: "next(r) < 2^W always". -/
theorem nextValue_lt {width r : Nat} (taps : Nat) (hw : 1 ≤ width) (hr : r < 2 ^ width) :
    nextValue width taps r < 2 ^ width := by
  refine Nat.lt_pow_two_of_testBit _ fun i hi => ?_
  have h := bitAt_nextValue width taps r i
  have h1 : ¬ i = width - 1 := by omega
  have h2 : bitAt r (i + 1) = false :=
    bitAt_eq_false_of_lt (Nat.lt_of_lt_of_le hr (Nat.pow_le_pow_right (by norm_num) (by omega)))
  rw [h2, decide_eq_false h1] at h
  simpa [bitAt] using h

theorem nextValue_iterate_lt {width r : Nat} (taps : Nat) (hw : 1 ≤ width) (hr : r < 2 ^ width) (k : Nat) :
    (nextValue width taps)^[k] r < 2 ^ width := by
  induction k with
  | zero => exact hr
  | succ k ih => rw [Function.iterate_succ_apply']; exact nextValue_lt taps hw ih

/-! ### The Engine after k steps -/

@[simp] theorem Engine.registerAfter_zero (e : Engine) : e.registerAfter 0 = e.register := rfl

theorem Engine.registerAfter_succ (e : Engine) (k : Nat) :
    e.registerAfter (k + 1) = nextValue e.width e.taps (e.registerAfter k) := by
  simp only [Engine.registerAfter, Function.iterate_succ_apply']

@[simp] theorem Engine.after_zero (e : Engine) : e.after 0 = e := rfl
@[simp] theorem Engine.after_width (e : Engine) (k : Nat) : (e.after k).width = e.width := rfl
@[simp] theorem Engine.after_seed (e : Engine) (k : Nat) : (e.after k).seed = e.seed := rfl
@[simp] theorem Engine.after_taps (e : Engine) (k : Nat) : (e.after k).taps = e.taps := rfl
@[simp] theorem Engine.after_register (e : Engine) (k : Nat) : (e.after k).register = e.registerAfter k := rfl
@[simp] theorem Engine.after_stepCount (e : Engine) (k : Nat) : (e.after k).stepCount = e.stepCount + k := rfl

theorem Engine.advance_after (e : Engine) (k : Nat) : (e.after k).advance = e.after (k + 1) := by
  simp only [Engine.advance, Engine.after, Engine.registerAfter_succ, Nat.add_assoc]

theorem Engine.registerAfter_after (e : Engine) (j k : Nat) : (e.after j).registerAfter k = e.registerAfter (j + k) := by
  simp only [Engine.registerAfter, Engine.after, ← Function.iterate_add_apply, Nat.add_comm k j]

theorem Engine.bitAfter_after (e : Engine) (j k : Nat) : (e.after j).bitAfter k = e.bitAfter (j + k) := by
  simp only [Engine.bitAfter, Engine.registerAfter_after, Engine.after_taps]

theorem Engine.feedback_after (e : Engine) (k : Nat) : (e.after k).feedback = e.bitAfter k := rfl

@[simp] theorem Engine.bits_length (e : Engine) (n : Nat) : (e.bits n).length = n := by simp [Engine.bits]

theorem Engine.bits_succ (e : Engine) (n : Nat) : e.bits (n + 1) = e.bits n ++ [e.bitAfter n] := by
  simp [Engine.bits, List.range_succ]

theorem Engine.registerAfter_lt {e : Engine} (hw : 1 ≤ e.width) (hr : e.register < 2 ^ e.width) (k : Nat) :
    e.registerAfter k < 2 ^ e.width := nextValue_iterate_lt e.taps hw hr k

/-! ### RUN's loop -/

/-- What RUN holds after `k` iterations from `e`: the Engine `k` steps on, the count, the first bits that have room. -/
def RunProgress.afterSteps (captureLimit : Nat) (e : Engine) (k : Nat) : RunProgress :=
  { engine := e.after k, count := k, captured := e.bits (min k captureLimit) }

theorem RunProgress.afterSteps_zero (captureLimit : Nat) (e : Engine) : RunProgress.afterSteps captureLimit e 0 = RunProgress.start e := by
  simp [RunProgress.afterSteps, RunProgress.start, Engine.bits]

/-- R66: one iteration keeps its bit exactly while fewer than `capture_limit` are held. -/
theorem RunProgress.advance_afterSteps (captureLimit : Nat) (e : Engine) (k : Nat) :
    (RunProgress.afterSteps captureLimit e k).advance captureLimit = RunProgress.afterSteps captureLimit e (k + 1) := by
  simp only [RunProgress.advance, RunProgress.afterSteps, Engine.advance_after, Engine.feedback_after, Engine.bits_length]
  by_cases h : k < captureLimit
  · rw [if_pos (by omega), Nat.min_eq_left h.le, Nat.min_eq_left h, Engine.bits_succ]
  · rw [if_neg (by omega), Nat.min_eq_right (by omega), Nat.min_eq_right (by omega)]

theorem RunProgress.recurs_afterSteps (captureLimit : Nat) (e : Engine) (k : Nat) :
    (RunProgress.afterSteps captureLimit e k).recurs = decide (e.registerAfter k = e.seed) := by
  simp [RunProgress.recurs, RunProgress.afterSteps, Bool.beq_eq_decide_eq]

/-- R65, the loop as the pseudocode writes it, with its explicit guard: after iteration `k + 1` the recurrence test
comes first, then the guard `n > limit`, where `left` is what the guard still allows. -/
theorem runLoop_afterSteps (captureLimit limit left k : Nat) (e : Engine) (h : k + left = limit) :
    runLoop captureLimit left (RunProgress.afterSteps captureLimit e k) =
      if e.registerAfter (k + 1) = e.seed then .recurred (RunProgress.afterSteps captureLimit e (k + 1))
      else if limit < k + 1 then .exhausted (RunProgress.afterSteps captureLimit e (k + 1))
      else runLoop captureLimit (left - 1) (RunProgress.afterSteps captureLimit e (k + 1)) := by
  cases left with
  | zero =>
    have hk : limit < k + 1 := by omega
    simp [runLoop, RunProgress.advance_afterSteps, RunProgress.recurs_afterSteps, hk]
  | succ left =>
    have hk : ¬ limit < k + 1 := by omega
    simp [runLoop, RunProgress.advance_afterSteps, RunProgress.recurs_afterSteps, hk]

theorem runLoop_recurred {captureLimit n : Nat} {e : Engine} (hn : e.FirstRecurrence n) :
    ∀ {left k : Nat}, k < n → n ≤ k + left + 1 →
      runLoop captureLimit left (RunProgress.afterSteps captureLimit e k) = .recurred (RunProgress.afterSteps captureLimit e n) := by
  obtain ⟨-, hseed, hfirst⟩ := hn
  intro left
  induction left with
  | zero =>
    intro k hk hle
    obtain rfl : n = k + 1 := by omega
    rw [runLoop_afterSteps captureLimit k 0 k e rfl, if_pos hseed]
  | succ left ih =>
    intro k hk hle
    rw [runLoop_afterSteps captureLimit (k + (left + 1)) (left + 1) k e rfl]
    by_cases h : n = k + 1
    · subst h; rw [if_pos hseed]
    · rw [if_neg (hfirst _ (by omega) (by omega)), if_neg (by omega), Nat.add_sub_cancel]
      exact ih (by omega) (by omega)

theorem runLoop_exhausted {captureLimit : Nat} {e : Engine} :
    ∀ {left k : Nat}, (∀ j, k < j → j ≤ k + left + 1 → e.registerAfter j ≠ e.seed) →
      runLoop captureLimit left (RunProgress.afterSteps captureLimit e k) =
        .exhausted (RunProgress.afterSteps captureLimit e (k + left + 1)) := by
  intro left
  induction left with
  | zero =>
    intro k h
    rw [runLoop_afterSteps captureLimit k 0 k e rfl, if_neg (h _ (by omega) (by omega)), if_pos (by omega)]
  | succ left ih =>
    intro k h
    rw [runLoop_afterSteps captureLimit (k + (left + 1)) (left + 1) k e rfl, if_neg (h _ (by omega) (by omega)),
      if_neg (by omega), Nat.add_sub_cancel, ih fun j hj hle => h j (by omega) (by omega)]
    congr 2; omega

/-- Either a recurrence comes within the first `m` steps, and then a first one, or none does. -/
theorem Engine.firstRecurrence_or_none (e : Engine) (m : Nat) :
    (∃ n, n ≤ m ∧ e.FirstRecurrence n) ∨ ∀ k, 1 ≤ k → k ≤ m → e.registerAfter k ≠ e.seed := by
  by_cases h : ∃ k, 1 ≤ k ∧ k ≤ m ∧ e.registerAfter k = e.seed
  · left
    have hP : ∃ k, 1 ≤ k ∧ e.registerAfter k = e.seed := by obtain ⟨k, h1, -, h3⟩ := h; exact ⟨k, h1, h3⟩
    classical
    refine ⟨Nat.find hP, ?_, (Nat.find_spec hP).1, (Nat.find_spec hP).2, ?_⟩
    · obtain ⟨k, h1, h2, h3⟩ := h
      exact (Nat.find_min' hP ⟨h1, h3⟩).trans h2
    · intro k hk hlt heq
      exact Nat.find_min hP hlt ⟨hk, heq⟩
  · right
    intro k h1 h2 h3
    exact h ⟨k, h1, h2, h3⟩

/-- R65: everything RUN can do on a READY Engine. -/
theorem Engine.runUntilPeriod_cases (captureLimit : Nat) (e : Engine) :
    (∃ n, n ≤ 2 ^ e.width + 1 ∧ e.FirstRecurrence n ∧
      e.runUntilPeriod captureLimit = .recurred (RunProgress.afterSteps captureLimit e n)) ∨
    ((∀ k, 1 ≤ k → k ≤ 2 ^ e.width + 1 → e.registerAfter k ≠ e.seed) ∧
      e.runUntilPeriod captureLimit = .exhausted (RunProgress.afterSteps captureLimit e (2 ^ e.width + 1))) := by
  unfold Engine.runUntilPeriod
  rw [← RunProgress.afterSteps_zero captureLimit e]
  rcases e.firstRecurrence_or_none (2 ^ e.width + 1) with ⟨n, hn, hf⟩ | h
  · exact .inl ⟨n, hn, hf, runLoop_recurred hf (by have := hf.1; omega) (by omega)⟩
  · refine .inr ⟨h, ?_⟩
    rw [runLoop_exhausted fun j hj hle => h j (by omega) (by omega), Nat.zero_add]

end Sys2Proof.Machine
end

