-- ==== Sys2Proof/Laws/Exec.lean ====
section
/-! SUPPORT. What each meaning answers, said once: the provers cite these instead of unfolding `exec` and `step`. -/

namespace Sys2Proof.Machine

variable {s t : State}

/-- What a command answers is the response its next state ends with. -/
theorem Answers.unique {i : Instr} {t' : State} {r r' : Response} (h : Answers i s t r) (h' : Answers i s t' r') :
    t = t' ∧ r = r' := by
  obtain ⟨h1, h2, -⟩ := h
  obtain ⟨h1', h2', -⟩ := h'
  rw [h1] at h1'
  cases h1'
  rw [h2] at h2'
  simpa using h2'

theorem answers_respond {i : Instr} {b : Block} {st : Status} {p : Payload}
    (h : exec i s = .next ((s.withBlock b).respond st p)) : Answers i s ((s.withBlock b).respond st p) ⟨st, p⟩ :=
  ⟨h, rfl, rfl⟩

theorem answers_raise {i : Instr} {st : Status} (h : exec i s = .next (s.raise st)) :
    Answers i s (s.raise st) ⟨st, .none⟩ := ⟨h, rfl, rfl⟩

theorem exec_init_invalidSeed {seed width : Nat} (taps : Nat) (s : State) (h : seedTestFails seed width = true) :
    exec (.init seed width taps) s = .next (s.raise .invalidSeed) := by simp [exec, execInit, h]

theorem exec_init_invalidConfig {seed width taps : Nat} (s : State) (h : seedTestFails seed width = false)
    (h' : tapsTestFails taps width = true) :
    exec (.init seed width taps) s = .next (s.raise .invalidConfig) := by simp [exec, execInit, h, h']

theorem exec_init_ok {seed width taps : Nat} (s : State) (h : seedTestFails seed width = false)
    (h' : tapsTestFails taps width = false) :
    exec (.init seed width taps) s =
      .next ((s.withBlock (.ready (Engine.fresh seed width taps))).respond .ok .none) := by simp [exec, execInit, h, h']

/-- Everything INIT can do. -/
theorem exec_init_cases (seed width taps : Nat) (s : State) :
    (seedTestFails seed width = true ∧ exec (.init seed width taps) s = .next (s.raise .invalidSeed)) ∨
    (seedTestFails seed width = false ∧ tapsTestFails taps width = true ∧
      exec (.init seed width taps) s = .next (s.raise .invalidConfig)) ∨
    (seedTestFails seed width = false ∧ tapsTestFails taps width = false ∧ exec (.init seed width taps) s =
      .next ((s.withBlock (.ready (Engine.fresh seed width taps))).respond .ok .none)) := by
  cases h : seedTestFails seed width with
  | true => exact .inl ⟨rfl, exec_init_invalidSeed taps s h⟩
  | false =>
    cases h' : tapsTestFails taps width with
    | true => exact .inr (.inl ⟨rfl, rfl, exec_init_invalidConfig s h h'⟩)
    | false => exact .inr (.inr ⟨rfl, rfl, exec_init_ok s h h'⟩)

theorem exec_step_ready {e : Engine} (h : s.block = .ready e) :
    exec .step s = .next ((s.withBlock (.ready e.advance)).respond .ok (.bit e.feedback)) := by
  simp [exec, execStep, h]

theorem exec_step_notReady (h : s.mode ≠ .ready) : exec .step s = .next (s.raise .notReady) := by
  unfold State.mode at h
  cases hb : s.block <;> simp [exec, execStep, hb] at h ⊢

theorem exec_run_notReady (captureLimit : Nat) (h : s.mode ≠ .ready) :
    exec (.run captureLimit) s = .next (s.raise .notReady) := by
  unfold State.mode at h
  cases hb : s.block <;> simp [exec, execRun, hb] at h ⊢

/-- Everything RUN can do on a READY Engine: the first recurrence within the guard, or the guard. -/
theorem exec_run_cases (captureLimit : Nat) {e : Engine} (h : s.block = .ready e) :
    (∃ n, n ≤ 2 ^ e.width + 1 ∧ e.FirstRecurrence n ∧ exec (.run captureLimit) s =
      .next ((s.withBlock (.ready (e.after n))).respond .ok (.run n (e.bits (min n captureLimit))))) ∨
    ((∀ k, 1 ≤ k → k ≤ 2 ^ e.width + 1 → e.registerAfter k ≠ e.seed) ∧ exec (.run captureLimit) s =
      .next ((s.withBlock (.faulted (e.after (2 ^ e.width + 1)))).raise .nonTerminating)) := by
  rcases e.runUntilPeriod_cases captureLimit with ⟨n, hn, hf, hr⟩ | ⟨hk, hr⟩
  · exact .inl ⟨n, hn, hf, by simp [exec, execRun, h, hr, RunProgress.afterSteps]⟩
  · exact .inr ⟨hk, by simp [exec, execRun, h, hr, RunProgress.afterSteps]⟩

theorem Engine.FirstRecurrence.unique {e : Engine} {m n : Nat} (hm : e.FirstRecurrence m) (hn : e.FirstRecurrence n) :
    m = n := by
  rcases lt_trichotomy m n with h | h | h
  · exact absurd hm.2.1 (hn.2.2 m hm.1 h)
  · exact h
  · exact absurd hn.2.1 (hm.2.2 n hn.1 h)

theorem exec_run_recurred (captureLimit : Nat) {e : Engine} {n : Nat} (h : s.block = .ready e)
    (hf : e.FirstRecurrence n) (hn : n ≤ 2 ^ e.width + 1) : exec (.run captureLimit) s =
      .next ((s.withBlock (.ready (e.after n))).respond .ok (.run n (e.bits (min n captureLimit)))) := by
  rcases exec_run_cases captureLimit h with ⟨m, -, hm, hr⟩ | ⟨hk, -⟩
  · rw [hr, hm.unique hf]
  · exact absurd hf.2.1 (hk n hf.1 hn)

theorem exec_run_exhausted (captureLimit : Nat) {e : Engine} (h : s.block = .ready e)
    (hk : ∀ k, 1 ≤ k → k ≤ 2 ^ e.width + 1 → e.registerAfter k ≠ e.seed) : exec (.run captureLimit) s =
      .next ((s.withBlock (.faulted (e.after (2 ^ e.width + 1)))).raise .nonTerminating) := by
  rcases exec_run_cases captureLimit h with ⟨m, hle, hm, -⟩ | ⟨-, hr⟩
  · exact absurd hm.2.1 (hk m hm.1 hle)
  · exact hr

theorem State.xorCombine_exhausted {d k : BitSeq} (s : State) (h : k.length < d.length) :
    s.xorCombine d k = s.raise .keystreamExhausted := by simp [State.xorCombine, h]

theorem State.xorCombine_ok {d k : BitSeq} (s : State) (h : d.length ≤ k.length) :
    s.xorCombine d k = s.respond .ok (.result (xorBits d k)) := by simp [State.xorCombine, not_lt.2 h]

theorem exec_xor (d k : BitSeq) (s : State) : exec (.xor d k) s = .next (s.xorCombine d k) := rfl
theorem exec_encrypt (p k : BitSeq) (s : State) : exec (.encrypt p k) s = .next (s.xorCombine p k) := rfl
theorem exec_decrypt (c k : BitSeq) (s : State) : exec (.decrypt c k) s = .next (s.xorCombine c k) := rfl

/-- XOR and its aliases, whichever way the length test falls. -/
theorem answers_xorCombine {i : Instr} {d k : BitSeq} (h : exec i s = .next (s.xorCombine d k)) :
    Answers i s (s.xorCombine d k)
      (if k.length < d.length then ⟨.keystreamExhausted, .none⟩ else ⟨.ok, .result (xorBits d k)⟩) := by
  refine ⟨h, ?_, State.xorCombine_events s d k⟩
  unfold State.xorCombine
  split <;> rfl

/-- R55: the three commands that are XOR. -/
theorem expand_eq_xor {i : Instr} {d k : BitSeq} :
    i.expand = .xor d k ↔ i = .xor d k ∨ i = .encrypt d k ∨ i = .decrypt d k := by
  cases i <;> simp [Instr.expand]

/-- Every way a command can end from a block (R92): the command, its answer, and the block it leaves. -/
inductive Performs (b : Block) : Instr → Response → Block → Prop
  | initBadSeed {seed width taps : Nat} : seedTestFails seed width = true →
      Performs b (.init seed width taps) ⟨.invalidSeed, .none⟩ b
  | initBadTaps {seed width taps : Nat} : seedTestFails seed width = false → tapsTestFails taps width = true →
      Performs b (.init seed width taps) ⟨.invalidConfig, .none⟩ b
  | initOk {seed width taps : Nat} : seedTestFails seed width = false → tapsTestFails taps width = false →
      Performs b (.init seed width taps) ⟨.ok, .none⟩ (.ready (Engine.fresh seed width taps))
  | stepNotReady : b.mode ≠ .ready → Performs b .step ⟨.notReady, .none⟩ b
  | stepOk {e : Engine} : b = .ready e → Performs b .step ⟨.ok, .bit e.feedback⟩ (.ready e.advance)
  | runNotReady {captureLimit : Nat} : b.mode ≠ .ready → Performs b (.run captureLimit) ⟨.notReady, .none⟩ b
  | runOk {captureLimit n : Nat} {e : Engine} : b = .ready e → n ≤ 2 ^ e.width + 1 → e.FirstRecurrence n →
      Performs b (.run captureLimit) ⟨.ok, .run n (e.bits (min n captureLimit))⟩ (.ready (e.after n))
  | runExhausted {captureLimit : Nat} {e : Engine} : b = .ready e →
      (∀ k, 1 ≤ k → k ≤ 2 ^ e.width + 1 → e.registerAfter k ≠ e.seed) →
      Performs b (.run captureLimit) ⟨.nonTerminating, .none⟩ (.faulted (e.after (2 ^ e.width + 1)))
  | xorExhausted {i : Instr} {d k : BitSeq} : i.expand = .xor d k → k.length < d.length →
      Performs b i ⟨.keystreamExhausted, .none⟩ b
  | xorOk {i : Instr} {d k : BitSeq} : i.expand = .xor d k → d.length ≤ k.length →
      Performs b i ⟨.ok, .result (xorBits d k)⟩ b

theorem performs_xorCombine {i : Instr} {d k : BitSeq} (hx : i.expand = .xor d k)
    (h : exec i s = .next (s.xorCombine d k)) : ∃ t r, Answers i s t r ∧ Performs s.block i r t.block := by
  refine ⟨_, _, answers_xorCombine h, ?_⟩
  rw [State.xorCombine_block]
  split
  · exact .xorExhausted hx ‹_›
  · exact .xorOk hx (not_lt.1 ‹_›)

theorem State.ready_of_mode (h : s.mode = .ready) : ∃ e, s.block = .ready e := by
  unfold State.mode at h
  cases hb : s.block <;> simp [hb] at h ⊢

/-- R47, R92, R117: every command, in every state, is answered once and ends in one of the ways listed. -/
theorem exec_performs (i : Instr) (s : State) : ∃ t r, Answers i s t r ∧ Performs s.block i r t.block := by
  cases i with
  | init seed width taps =>
    rcases exec_init_cases seed width taps s with ⟨h, e⟩ | ⟨h, h', e⟩ | ⟨h, h', e⟩
    · exact ⟨_, _, answers_raise e, .initBadSeed h⟩
    · exact ⟨_, _, answers_raise e, .initBadTaps h h'⟩
    · exact ⟨_, _, answers_respond e, .initOk h h'⟩
  | step =>
    by_cases hm : s.mode = .ready
    · obtain ⟨e, he⟩ := State.ready_of_mode hm
      exact ⟨_, _, answers_respond (exec_step_ready he), .stepOk he⟩
    · exact ⟨_, _, answers_raise (exec_step_notReady hm), .stepNotReady hm⟩
  | run captureLimit =>
    by_cases hm : s.mode = .ready
    · obtain ⟨e, he⟩ := State.ready_of_mode hm
      rcases exec_run_cases captureLimit he with ⟨n, hn, hf, hr⟩ | ⟨hk, hr⟩
      · exact ⟨_, _, answers_respond hr, .runOk he hn hf⟩
      · exact ⟨_, _, answers_respond hr, .runExhausted he hk⟩
    · exact ⟨_, _, answers_raise (exec_run_notReady captureLimit hm), .runNotReady hm⟩
  | xor d k => exact performs_xorCombine rfl (exec_xor d k s)
  | encrypt p k => exact performs_xorCombine rfl (exec_encrypt p k s)
  | decrypt c k => exact performs_xorCombine rfl (exec_decrypt c k s)

/-- The same, read from an answer: the provers take a command apart with `cases` on this. -/
theorem Answers.performs {i : Instr} {r : Response} (h : Answers i s t r) : Performs s.block i r t.block := by
  obtain ⟨t', r', h', hp⟩ := exec_performs i s
  obtain ⟨rfl, rfl⟩ := h.unique h'
  exact hp

/-- `exec` never stops: whatever it answers is a next state (R94, R117). -/
theorem answers_of_exec {i : Instr} (h : exec i s = .next t) : ∃ r, Answers i s t r := by
  obtain ⟨t', r, h', -⟩ := exec_performs i s
  have he := h'.1
  rw [h] at he
  cases he
  exact ⟨r, h'⟩

/-! ### The step around `exec` -/

theorem step_idle (h : s.events = []) : step s = .next s := by simp [step, State.takeEvent_nil s h]

theorem step_reset {rest : List HostEvent} (h : s.events = .reset :: rest) :
    step s = .next ({ s with events := rest } : State).resetBlock := by simp [step, State.takeEvent_cons s h]

theorem step_command {c : CommandRecord} {rest : List HostEvent} {i : Instr} (h : s.events = .command c :: rest)
    (hd : decode c = .ok i) : step s = exec i { s with events := rest } := by
  simp [step, State.takeEvent_cons s h, hd]

theorem step_malformed {c : CommandRecord} {rest : List HostEvent} {why : DecodeError}
    (h : s.events = .command c :: rest) (hd : decode c = .error why) :
    step s = .refused (.malformedCommand why) := by
  simp [step, State.takeEvent_cons s h, hd]

/-- Everything a step that has a next state can have done. -/
theorem step_cases (h : step s = .next t) :
    (s.events = [] ∧ t = s) ∨
    (∃ rest, s.events = .reset :: rest ∧ t = ({ s with events := rest } : State).resetBlock) ∨
    (∃ c rest i, s.events = .command c :: rest ∧ decode c = .ok i ∧ exec i { s with events := rest } = .next t) := by
  cases hev : s.events with
  | nil => rw [step_idle hev] at h; cases h; exact .inl ⟨rfl, rfl⟩
  | cons ev rest =>
    cases ev with
    | reset => rw [step_reset hev] at h; cases h; exact .inr (.inl ⟨rest, rfl, rfl⟩)
    | command c =>
      cases hd : decode c with
      | ok i => rw [step_command hev hd] at h; exact .inr (.inr ⟨c, rest, i, rfl, hd, h⟩)
      | error why => rw [step_malformed hev hd] at h; cases h

end Sys2Proof.Machine
end

