-- ==== Sys2Proof/Laws/PerInstr.lean ====
section
/-! SUPPORT. The one family of statements made per instruction: a pseudo-command and its expansion are one command to
the block (R55). -/

namespace Sys2Proof.Laws.SameRecord

/-- R55: a command and its expansion have one record, and can be presented to the same instances. -/
def Statement (i : Instr) : Prop :=
  encode i.expand = encode i ∧ ∀ lim, i.expand.wellFormed lim = i.wellFormed lim

theorem init (seed width taps : Nat) : Statement (.init seed width taps) := ⟨rfl, fun _ => rfl⟩
theorem step : Statement .step := ⟨rfl, fun _ => rfl⟩
theorem run (captureLimit : Nat) : Statement (.run captureLimit) := ⟨rfl, fun _ => rfl⟩
theorem xor (data keystream : BitSeq) : Statement (.xor data keystream) := ⟨rfl, fun _ => rfl⟩
theorem encrypt (plaintext keystream : BitSeq) : Statement (.encrypt plaintext keystream) := ⟨rfl, fun _ => rfl⟩
theorem decrypt (ciphertext keystream : BitSeq) : Statement (.decrypt ciphertext keystream) := ⟨rfl, fun _ => rfl⟩

end Sys2Proof.Laws.SameRecord
end

