-- ==== Sys2Proof/Tests/Slice0.lean ====
section
/-! SUPPORT. Small tests, every expected value from `95_test_vectors.md` or a rule named in the comment, and for each
statement with hypotheses a concrete case that meets them. -/

namespace Sys2Proof.Tests

open Sys2Proof Sys2Proof.Machine

/-- A bit string of the spec, character 0 first (R31). -/
def seq (digits : List Nat) : BitSeq := digits.map (· == 1)

/-- A state with the block `b`, nothing presented and nothing answered. -/
def at_ (b : Block) : State := ⟨b, [], []⟩

/-- What one command leaves and answers: the block and the responses. -/
def after? : Host.Outcome State Fault Refusal → Option (Block × List Response)
  | .next t => some (t.block, t.responses)
  | .fault _ => none
  | .refused _ => none

/-! ### Decoding: records written out from R43 to R46 with the operand values of programs P1 and P5 -/

theorem test_decode_init : decode ⟨0b00#2, [.num 537, .num 10, .num 129]⟩ = .ok (.init 537 10 129) := rfl
theorem test_decode_step : decode ⟨0b01#2, []⟩ = .ok .step := rfl
theorem test_decode_run : decode ⟨0b10#2, [.num 512]⟩ = .ok (.run 512) := rfl
theorem test_decode_xor : decode ⟨0b11#2, [.bits (seq [1, 1, 0]), .bits (seq [1, 0, 1, 1])]⟩ =
    .ok (.xor (seq [1, 1, 0]) (seq [1, 0, 1, 1])) := rfl

/-- R55: the record of ENCRYPT and of DECRYPT is read as XOR. -/
theorem test_decode_aliases :
    decode (encode (.encrypt (seq [1]) (seq [0]))) = .ok (.xor (seq [1]) (seq [0])) ∧
    decode (encode (.decrypt (seq [1]) (seq [0]))) = .ok (.xor (seq [1]) (seq [0])) := ⟨rfl, rfl⟩

/-- A record whose fields are another format's is rejected by name. -/
theorem test_decode_rejects :
    decode ⟨0b00#2, [.num 537, .num 10]⟩ = .error .notInitFormat ∧ decode ⟨0b01#2, [.num 0]⟩ = .error .notStepFormat ∧
    decode ⟨0b10#2, []⟩ = .error .notRunFormat ∧ decode ⟨0b11#2, [.num 0, .num 0]⟩ = .error .notXorFormat :=
  ⟨rfl, rfl, rfl, rfl⟩

/-- The table's match values 0 to 3 (a word too short for an opcode is none). -/
theorem test_decodeTableWord :
    [0, 1, 2, 3].map (decodeTableWord 8) = [some (.init 0 0 0), some .step, some (.run 0), some (.xor [] [])] ∧
    decodeTableWord 1 0 = none := by decide

/-! ### WellFormed: one ill-formed command for each check, and a well-formed one -/

def lim : Config.Limits := ⟨10, 512, 32⟩

theorem test_wellFormed_accepts : Config.referenceInit.wellFormed lim = true ∧ lim.adequate = true := by decide
theorem test_wellFormed_seed : (Instr.init 1024 10 129).wellFormed lim = false := by decide
theorem test_wellFormed_width : (Instr.init 537 11 129).wellFormed lim = false := by decide
theorem test_wellFormed_taps : (Instr.init 537 10 1024).wellFormed lim = false := by decide
theorem test_wellFormed_capture : (Instr.run 513).wellFormed lim = false := by decide
theorem test_wellFormed_xor_data : (Instr.xor (List.replicate 33 true) []).wellFormed lim = false := by decide
theorem test_wellFormed_xor_keystream : (Instr.xor [] (List.replicate 33 true)).wellFormed lim = false := by decide
theorem test_wellFormed_encrypt :
    (Instr.encrypt (List.replicate 33 true) []).wellFormed lim = false ∧
    (Instr.encrypt [] (List.replicate 33 true)).wellFormed lim = false := by decide
theorem test_wellFormed_decrypt :
    (Instr.decrypt (List.replicate 33 true) []).wellFormed lim = false ∧
    (Instr.decrypt [] (List.replicate 33 true)).wellFormed lim = false := by decide

/-! ### The commands -/

/-- Section 2.3 row 1. -/
theorem test_init_ok : after? (exec (.init 537 10 129) State.reset) =
    some (.ready ⟨10, 537, 129, 537, 0⟩, [⟨.ok, .none⟩]) := by decide

/-- Section 2.3 row 7 (position 10 of a 10-bit register) on a FAULTED block, which stays. -/
theorem test_init_invalidConfig : after? (exec (.init 5 10 1025) (at_ (.faulted ⟨3, 1, 2, 0, 9⟩))) =
    some (.faulted ⟨3, 1, 2, 0, 9⟩, [⟨.invalidConfig, .none⟩]) := by decide

/-- Section 2.1 step 4: 707 = `1011000011`, bit 0 and bit 7 both 1. -/
theorem test_step_reference : after? (exec .step (at_ (.ready ⟨10, 537, 129, 707, 3⟩))) =
    some (.ready ⟨10, 537, 129, 353, 4⟩, [⟨.ok, .bit false⟩]) := by decide

/-- Section 2.4 row 7: the tap at the top bit. -/
theorem test_step_top_tap : after? (exec .step (at_ (.ready ⟨3, 4, 4, 4, 0⟩))) =
    some (.ready ⟨3, 4, 4, 6, 1⟩, [⟨.ok, .bit true⟩]) := by decide

/-- Section 2.5 row 17: a capture shorter than the period. -/
theorem test_run_capture : after? (exec (.run 4) (at_ (.ready ⟨4, 9, 3, 9, 0⟩))) =
    some (.ready ⟨4, 9, 3, 9, 15⟩, [⟨.ok, .run 15 (seq [1, 0, 1, 0])⟩]) := by decide

/-- Section 2.6 row 3: the guard at n = 9. -/
theorem test_run_nonTerminating : after? (exec (.run 16) (at_ (.ready ⟨3, 1, 2, 1, 0⟩))) =
    some (.faulted ⟨3, 1, 2, 0, 9⟩, [⟨.nonTerminating, .none⟩]) := by decide

/-- Section 2.7 row 7. -/
theorem test_xor_surplus : after? (exec (.xor (seq [1, 1, 0]) (seq [1, 0, 1, 1])) State.reset) =
    some (.unconfigured, [⟨.ok, .result (seq [0, 1, 1])⟩]) := by decide

/-- Section 2.7 row 9. -/
theorem test_xor_exhausted : after? (exec (.xor (seq [1, 1, 0, 1]) (seq [1, 0, 1])) State.reset) =
    some (.unconfigured, [⟨.keystreamExhausted, .none⟩]) := by decide

/-- Section 1.1: the first 16 bits of P, K32 and C. -/
theorem test_encrypt : after? (exec (.encrypt (seq [1,1,1,0,1,1,0,0, 0,0,0,1,1,0,1,1])
      (seq [1,0,1,0,1,1,0,1, 1,1,0,1,0,0,0,1])) State.reset) =
    some (.unconfigured, [⟨.ok, .result (seq [0,1,0,0,0,0,0,1, 1,1,0,0,1,0,1,0])⟩]) := by decide

/-- Program P5 row 4. -/
theorem test_decrypt : after? (exec (.decrypt (seq [0, 1, 1]) (seq [1, 0, 1, 1])) State.reset) =
    some (.unconfigured, [⟨.ok, .result (seq [1, 1, 0])⟩]) := by decide

/-- R48: the codes 0 to 5 are the six statuses and 6 and 7 are none. -/
theorem test_status_codes : [0#3, 1#3, 2#3, 3#3, 4#3, 5#3, 6#3, 7#3].map statusOfCode =
    [some .ok, some .invalidSeed, some .keystreamExhausted, some .nonTerminating, some .invalidConfig, some .notReady,
      none, none] := by decide

/-! ### Witnesses: concrete cases that meet the statements' hypotheses -/

/-- W = 3, taps {0,1}, seed 1 (section 2.5 row 6). -/
def e7 : Engine := Engine.fresh 1 3 3
/-- W = 3, taps {1}, seed 1 (section 2.6 row 3). -/
def e0 : Engine := Engine.fresh 1 3 2

theorem good_e7 : e7.Good := ⟨by decide, tapsValid_iff.2 (by decide), by decide, rfl⟩
theorem good_e0 : e0.Good := ⟨by decide, tapsValid_iff.2 (by decide), by decide, rfl⟩

theorem e7_recurs : e7.FirstRecurrence 7 :=
  ⟨by decide, by decide, fun k h1 h2 => by interval_cases k <;> decide⟩
theorem e0_never_recurs : ∀ k, 1 ≤ k → k ≤ 2 ^ e0.width + 1 → e0.registerAfter k ≠ e0.seed := by
  intro k h1 h2
  replace h2 : k ≤ 9 := h2
  interval_cases k <;> decide

/-- StepRunsDecodedCommand, MalformedRecordRefused, ResetEventDiscardsEngine, IdleBlockKeepsState. -/
theorem witness_events :
    (∃ (s : State) (c : CommandRecord) (rest : List HostEvent) (i : Instr),
      s.events = .command c :: rest ∧ decode c = .ok i) ∧
    (∃ (s : State) (c : CommandRecord) (rest : List HostEvent) (why : DecodeError),
      s.events = .command c :: rest ∧ decode c = .error why) ∧
    (∃ (s : State) (rest : List HostEvent), s.events = .reset :: rest) ∧ ∃ s : State, s.events = [] :=
  ⟨⟨⟨.unconfigured, [.command ⟨0b01#2, []⟩], []⟩, _, _, _, rfl, rfl⟩,
    ⟨⟨.unconfigured, [.command ⟨0b01#2, [.num 0]⟩], []⟩, _, _, _, rfl, rfl⟩,
    ⟨⟨.ready e7, [.reset], []⟩, _, rfl⟩, ⟨State.reset, rfl⟩⟩

/-- TableWordRunsNext at both ends of its range. -/
theorem witness_table_words : (0 : Nat) < 4 ∧ (3 : Nat) < 4 := by decide

/-- BlockAfterResetAnswers, SessionRecoversPlaintext, KeystreamObeysLinearRecurrence, DroppedBitsAreSeedThenKeystream,
NextValueReversibleExactlyWithTapZero (first clause): the largest legal seed and the tap at position 0. -/
theorem witness_legal_init : State.reset.block = State.reset.block ∧ seedValid 1023 10 ∧ tapsValid 129 10 ∧
    bitAt 129 0 = true := ⟨rfl, by decide, tapsValid_iff.2 (by decide), by decide⟩

/-- InitFollowsPseudocode, each clause at a boundary: seed 0, seed 2^W, the empty set, a tap at W, all ones. -/
theorem witness_init_clauses :
    ((0 : Nat) = 0 ∨ 2 ^ 10 ≤ 0) ∧ ((1024 : Nat) = 0 ∨ 2 ^ 10 ≤ 1024) ∧ ¬ ((1023 : Nat) = 0 ∨ 2 ^ 10 ≤ 1023) ∧
    (∀ t, bitAt 0 t = false) ∧ (bitAt 1024 10 = true ∧ 10 ≤ 10) ∧
    ¬ ((∀ t, bitAt 1023 t = false) ∨ ∃ t, bitAt 1023 t = true ∧ 10 ≤ t) := by
  refine ⟨by decide, by decide, by decide, bitAt_zero, by decide, ?_⟩
  rw [← tapsTestFails_eq_true]
  decide

/-- FeedbackBitIsTapParity, NextValueShiftsFeedbackIn: the smallest register and the reference one. -/
theorem witness_next_value : 129 < 2 ^ 10 ∧ 1 ≤ 1 ∧ 1 < 2 ^ 1 ∧ tapsValid 1 1 ∧ (8 : Nat) + 2 ≤ 10 :=
  ⟨by decide, by decide, by decide, tapsValid_iff.2 (by decide), by decide⟩

/-- StepFollowsPseudocode, RunFollowsPseudocode, GuardNeverCutsShortARecurrence, PeriodBoundedByNonzeroStates,
RunAfterStepsMeasuresDistanceToSeed, ResponsesAreDeterminedAndRunRepeats, TapZeroRunAlwaysEndsOk: a READY good Engine at
its seed, with position 0 a tap, that recurs within the guard, before and after STEPs. -/
theorem witness_ready : (at_ (.ready e7)).mode = .ready ∧ (at_ (.ready e7)).block = .ready e7 ∧ e7.Good ∧
    e7.register = e7.seed ∧ bitAt e7.taps 0 = true ∧ e7.FirstRecurrence 7 ∧ 7 ≤ 2 ^ e7.width + 1 ∧
    1 ≤ e7.width ∧ (at_ (.ready (e7.after 3))).block = .ready (e7.after 3) :=
  ⟨rfl, rfl, good_e7, rfl, by decide, e7_recurs, by decide, by decide, rfl⟩

/-- The clauses of the same statements for a block that is not READY, and for a RUN past the guard. -/
theorem witness_notReady_and_guard : (at_ (.faulted e0)).mode ≠ .ready ∧ State.reset.mode ≠ .ready ∧
    ∀ k, 1 ≤ k → k ≤ 2 ^ e0.width + 1 → e0.registerAfter k ≠ e0.seed :=
  ⟨by decide, by decide, e0_never_recurs⟩

/-- StepOnZeroAndAllOnes: both register values, an even and an odd number of taps. -/
theorem witness_zero_and_all_ones : tapsValid 3 3 ∧ tapsValid 7 3 ∧ (Engine.mk 3 1 3 0 1).register = 0 ∧
    (Engine.mk 3 1 7 7 0).register = 2 ^ 3 - 1 :=
  ⟨tapsValid_iff.2 (by decide), tapsValid_iff.2 (by decide), rfl, rfl⟩

/-- PeriodBoundedByNonzeroStates, RunIsRepeatedStep, ResponsesAreDeterminedAndRunRepeats: a RUN that ends `OK`. -/
theorem witness_run_ok : ∃ t, Answers (.run 4) (at_ (.ready e7)) t ⟨.ok, .run 7 (e7.bits 4)⟩ :=
  ⟨_, answers_respond (exec_run_recurred 4 rfl e7_recurs (by decide))⟩

/-- RunIsRepeatedStep: the states that STEPs leave, and their bits. -/
theorem witness_steps : ∃ (f : Nat → State) (z : Nat → Bit), f 0 = at_ (.ready e7) ∧
    ∀ k, k < 7 → Answers .step (f k) (f (k + 1)) ⟨.ok, .bit (z k)⟩ := by
  refine ⟨fun k => ⟨.ready (e7.after k), [], (e7.bits k).map fun b => ⟨.ok, .bit b⟩⟩, e7.bitAfter, rfl, fun k _ => ?_⟩
  have h := answers_respond (exec_step_ready (s := ⟨.ready (e7.after k), [], (e7.bits k).map fun b => ⟨.ok, .bit b⟩⟩) rfl)
  rw [Engine.advance_after] at h
  simpa [State.withBlock, State.respond, Engine.bits_succ, Engine.feedback_after] using h

/-- StepCountIsUnread: two blocks that differ in `step_count` alone. -/
theorem witness_counts : (Block.ready e7).forgetCount = (Block.ready { e7 with stepCount := 5 }).forgetCount := rfl

/-- ZeroRegisterIsAbsorbing: a good READY Engine whose register has fallen to 0. -/
theorem witness_zero_register : (e0.after 1).Good ∧ (e0.after 1).register = 0 :=
  ⟨⟨by decide, tapsValid_iff.2 (by decide), by decide, by decide⟩, by decide⟩

/-- NonTerminatingReachableWithoutTapZero, NextValueReversibleExactlyWithTapZero (second clause). -/
theorem witness_without_tap_zero : tapsValid 2 3 ∧ bitAt 2 0 = false := ⟨tapsValid_iff.2 (by decide), by decide⟩

/-- ReferenceTapsHavePeriod1023 at both ends of its range. -/
theorem witness_reference : (1 ≤ 1 ∧ 1 ≤ 1023) ∧ (1 ≤ 1023 ∧ 1023 ≤ 1023) := by decide

/-- XorFollowsPseudocode, DecryptUndoesEncrypt, XorIsInvolution, XorReadsOnlyItsPrefix, XorExhaustionBoundary. -/
theorem witness_xor : (seq [1, 0, 1]).length < (seq [1, 1, 0, 1]).length ∧
    (seq [1, 0, 1]).length + 1 = (seq [1, 1, 0, 1]).length ∧ (seq [1, 1, 0]).length ≤ (seq [1, 0, 1, 1]).length ∧
    (seq [1, 0, 1, 1]).take 3 = (seq [1, 0, 1, 0]).take 3 ∧ ([] : BitSeq).length = ([] : BitSeq).length := by decide

/-- ErrorsKeepTheBlockExceptNonTerminating (both clauses), OperandErrorsRaisedExactly, NotReadyRaisedExactly,
FaultedEngineStaysUntilInit: answers that are errors. -/
theorem witness_errors :
    (∃ t, Answers .step (at_ (.faulted e0)) t ⟨.notReady, .none⟩) ∧
    (∃ t, Answers (.init 0 10 129) State.reset t ⟨.invalidSeed, .none⟩) ∧
    ∃ t, Answers (.run 16) (at_ (.ready e0)) t ⟨.nonTerminating, .none⟩ :=
  ⟨⟨_, answers_raise (exec_step_notReady (by decide))⟩, ⟨_, answers_raise (exec_init_invalidSeed 129 _ (by decide))⟩,
    ⟨_, answers_respond (exec_run_exhausted 16 rfl e0_never_recurs)⟩⟩

/-- ModeChangesOnlyAsListed: a step that changes the mode. -/
theorem witness_mode_change : ∃ s t : State, step s = .next t ∧ t.mode ≠ s.mode :=
  ⟨⟨.ready e7, [.reset], []⟩, ⟨.unconfigured, [], []⟩, rfl, by decide⟩

/-- CommandFrames, StepKeepsGoodEngine, RegisterNonzeroWithTapZero, InstanceMaximaSuffice: a state in the invariant with an
Engine that fits the maxima `lim`, and a next state. -/
theorem witness_invariant : (at_ (.ready e7)).Inv ∧ (at_ (.ready e7)).block.engine? = some e7 ∧ bitAt e7.taps 0 = true ∧
    e7.Fits lim ∧ Instr.step.wellFormed lim = true ∧ (∃ t, exec .step (at_ (.ready e7)) = .next t) ∧
    ∃ t, step (at_ (.ready e7)) = .next t := by
  refine ⟨fun e h => ?_, rfl, by decide, ⟨by decide, by decide, by decide, by decide⟩, rfl, ⟨_, exec_step_ready rfl⟩, ⟨_, step_idle rfl⟩⟩
  cases h
  exact good_e7

/-- SessionRecoversPlaintext: a state with the four commands of R108 presented. -/
theorem witness_session : ∃ (s : State) (rest : List HostEvent),
    s.events = .command (encode (.init 1 3 3)) :: .command (encode (.run 4)) ::
      .command (encode (.encrypt (seq [1, 1, 0]) (seq [1, 0, 1, 1]))) ::
      .command (encode (.decrypt (seq [0, 1, 1]) (seq [1, 0, 1, 1]))) :: rest :=
  ⟨⟨.unconfigured, [_, _, _, _], []⟩, [], rfl⟩

end Sys2Proof.Tests
end

section
/-! Proofs for the family `30_encoding.md`: the response table (R49) and the two pseudo-commands (R55). -/

namespace Sys2Proof.Machine

/-! ### The rows of the response table -/

/-- R49, the row RUN `OK`, which asks for a positive period and a capture of min(period, capture_limit) bits. -/
theorem Response.inRunRow_ok {captureLimit period : Nat} {keystream : BitSeq} :
    Response.inRunRow captureLimit ⟨.ok, .run period keystream⟩ = true ↔
      0 < period ∧ keystream.length = min period captureLimit := by
  simp [Response.inRunRow]

/-- R49, the row XOR `OK`, which asks for a result as long as the data. -/
theorem Response.inXorRow_ok {data bits : BitSeq} :
    Response.inXorRow data ⟨.ok, .result bits⟩ = true ↔ bits.length = data.length := by
  simp [Response.inXorRow]

/-- R55: the aliases of XOR have XOR's rows. -/
theorem Response.inRow_of_expand_eq_xor {i : Instr} {d k : BitSeq} (r : Response) (hx : i.expand = .xor d k) :
    r.inRow i = r.inXorRow d := by
  rcases expand_eq_xor.1 hx with rfl | rfl | rfl <;> rfl

/-- R49: each way a command can end is answered in that command's rows. The rows with a length or a period to meet are
RUN's `OK`, where the period is a first recurrence and so positive, and XOR's. -/
theorem Performs.inRow {b b' : Block} {i : Instr} {r : Response} (h : Performs b i r b') : r.inRow i = true := by
  cases h with
  | initBadSeed | initBadTaps | initOk => rfl
  | stepNotReady | stepOk => rfl
  | runNotReady | runExhausted => rfl
  | runOk _ _ hf => exact Response.inRunRow_ok.2 ⟨hf.1, Engine.bits_length _ _⟩
  | xorExhausted hx _ => rw [Response.inRow_of_expand_eq_xor _ hx]; rfl
  | xorOk hx hlen =>
    rw [Response.inRow_of_expand_eq_xor _ hx]
    exact Response.inXorRow_ok.2 (xorBits_length hlen)

/-- Settles O39: every command ends in one of the ways of `Performs`, and each of them answers in the command's rows. -/
theorem everyCommandAnswersInItsRow : Obligations.EveryCommandAnswersInItsRow := by
  intro i s
  obtain ⟨t, r, hanswers, hperforms⟩ := exec_performs i s
  exact ⟨t, r, hanswers, hperforms.inRow⟩

/-! ### The pseudo-commands -/

/-- R55: only ENCRYPT and DECRYPT stand for another command. -/
theorem encrypt_or_decrypt_of_expand_ne {i : Instr} (h : i.expand ≠ i) :
    ∃ d k : BitSeq, i = .encrypt d k ∨ i = .decrypt d k := by
  cases i with
  | init | step | run | xor => exact absurd rfl h
  | encrypt p k => exact ⟨p, k, .inl rfl⟩
  | decrypt c k => exact ⟨c, k, .inr rfl⟩

/-- Settles O33: the three commands share one effect, `State.xorCombine`, and one record. -/
theorem encryptAndDecryptAreXor : Obligations.EncryptAndDecryptAreXor := by
  refine ⟨fun s d k => ⟨rfl, rfl, ?_, ?_, ?_, ?_⟩, fun _ => encrypt_or_decrypt_of_expand_ne⟩
  · rw [exec_encrypt, exec_xor]
  · rw [exec_decrypt, exec_xor]
  · exact (Laws.SameRecord.encrypt d k).1.symm
  · exact (Laws.SameRecord.decrypt d k).1.symm

end Sys2Proof.Machine
end

section
/-! Proofs for the family `40_engine.md`: INIT (R57, R59), the step functions (R61, R62), STEP (R63) and RUN (R65). -/

namespace Sys2Proof.Machine

/-! ### INIT -/

/-- Settles O10: the two tests of `execInit` are the conditions of R57, and each branch is one of `exec_init_cases`. -/
theorem initFollowsPseudocode : Obligations.InitFollowsPseudocode := by
  intro s seed width taps
  rw [← seedTestFails_eq_true, ← tapsTestFails_eq_true, Bool.not_eq_true, Bool.not_eq_true]
  exact ⟨rfl, exec_init_invalidSeed taps s, exec_init_invalidConfig s, exec_init_ok s⟩

/-- Settles O13: which branch INIT takes depends on its operands alone, and only the successful one writes the block,
with an Engine made of the operands. -/
theorem initReplacesOrKeepsEngine : Obligations.InitReplacesOrKeepsEngine := by
  intro s s' seed width taps
  rcases exec_init_cases seed width taps s with ⟨hseed, hs⟩ | ⟨hseed, htaps, hs⟩ | ⟨hseed, htaps, hs⟩
  · have hs' := exec_init_invalidSeed taps s' hseed
    exact ⟨_, _, _, answers_raise hs, answers_raise hs', fun _ => rfl, nofun⟩
  · have hs' := exec_init_invalidConfig s' hseed htaps
    exact ⟨_, _, _, answers_raise hs, answers_raise hs', fun _ => rfl, nofun⟩
  · have hs' := exec_init_ok s' hseed htaps
    exact ⟨_, _, _, answers_respond hs, answers_respond hs', fun hne => absurd rfl hne, fun _ => rfl⟩

/-! ### The feedback bit -/

/-- R50: a mask below 2^width denotes the positions below `width` whose bit it holds. -/
theorem tapPositions_perm_range {taps width : Nat} (h : taps < 2 ^ width) :
    (tapPositions taps).Perm ((List.range width).filter (bitAt taps)) := by
  refine (List.perm_ext_iff_of_nodup (tapPositions_nodup taps) (List.nodup_range.filter _)).2 fun t => ?_
  have hlt := bits_below_iff.2 h t
  simpa using hlt

/-- R61: the feedback bit is the parity of the tap positions that hold 1, counted over the `width` positions. -/
theorem feedbackBit_eq_parity {taps width : Nat} (r : Nat) (h : taps < 2 ^ width) :
    feedbackBit taps r = decide ((List.range width).countP (fun t => bitAt taps t && bitAt r t) % 2 = 1) := by
  rw [feedbackBit, xorOver_perm (tapPositions_perm_range h), xorOver_eq_parity, List.countP_filter]
  simp only [Bool.and_comm]

/-- R9, R61: the reference taps are the positions 0 and 7. -/
theorem feedbackBit_reference (r : Nat) : feedbackBit 0b0010000001 r = (bitAt r 0 ^^ bitAt r 7) := by
  have hpos : tapPositions 0b0010000001 = [0, 7] := by decide
  simp [feedbackBit, hpos]

/-- The mask 1 taps bit 0 alone. -/
theorem feedbackBit_one (r : Nat) : feedbackBit 1 r = bitAt r 0 := by
  have hpos : tapPositions 1 = [0] := by decide
  simp [feedbackBit, hpos]

/-- Settles O14: the exclusive or over the tap positions is their parity. -/
theorem feedbackBitIsTapParity : Obligations.FeedbackBitIsTapParity := by
  intro width taps r htaps
  refine ⟨?_, feedbackBit_zero taps, feedbackBit_reference r⟩
  rw [feedbackBit_eq_parity r htaps, decide_eq_true_iff]

/-! ### The next-state value -/

/-- R62: "next(r)[W-1] = fb(r)". -/
theorem bitAt_nextValue_top {width r : Nat} (taps : Nat) (hw : 1 ≤ width) (hr : r < 2 ^ width) :
    bitAt (nextValue width taps r) (width - 1) = feedbackBit taps r := by
  have hout : bitAt r (width - 1 + 1) = false := by rw [Nat.sub_add_cancel hw]; exact bitAt_eq_false_of_lt hr
  simp [bitAt_nextValue, hout]

/-- R62: "next(r)[i] = r[i+1] for 0 <= i <= W-2". -/
theorem bitAt_nextValue_low {width i : Nat} (taps r : Nat) (hi : i + 2 ≤ width) :
    bitAt (nextValue width taps r) i = bitAt r (i + 1) := by
  have hne : i ≠ width - 1 := by omega
  simp [bitAt_nextValue, hne]

/-- R62 as arithmetic: the shifted register stays below bit W-1, so the OR is a sum. -/
theorem nextValue_eq_add {width r : Nat} (taps : Nat) (hw : 1 ≤ width) (hr : r < 2 ^ width) :
    nextValue width taps r = r / 2 + (feedbackBit taps r).toNat * 2 ^ (width - 1) := by
  have hhalf : r >>> 1 < 2 ^ (width - 1) := by
    rw [Nat.shiftRight_one, Nat.div_lt_iff_lt_mul two_pos, ← pow_succ, Nat.sub_add_cancel hw]
    exact hr
  rw [nextValue, ← Nat.shiftLeft_add_eq_or_of_lt hhalf, Nat.shiftLeft_eq, Nat.shiftRight_one, Nat.add_comm]

/-- R58: a register of one bit has the tap set {0} only. -/
theorem eq_one_of_tapsValid_one {taps : Nat} (h : tapsValid taps 1) : taps = 1 := by
  have hne : taps ≠ 0 := exists_bitAt_iff.1 h.1
  have hlt : taps < 2 ^ 1 := bits_below_iff.1 h.2
  omega

/-- R62: with W = 1 a step feeds the register's only bit back into its place. -/
theorem nextValue_width_one {r : Nat} (hr : r < 2 ^ 1) : nextValue 1 1 r = r := by
  rw [nextValue_eq_add 1 le_rfl hr, feedbackBit_one]
  interval_cases r <;> decide

/-- Settles O15, clause by clause. -/
theorem nextValueShiftsFeedbackIn : Obligations.NextValueShiftsFeedbackIn := by
  intro width taps r hw hr
  refine ⟨bitAt_nextValue_top taps hw hr, fun i => bitAt_nextValue_low taps r, nextValue_lt taps hw hr,
    nextValue_eq_add taps hw hr, ?_⟩
  rintro rfl htaps
  obtain rfl := eq_one_of_tapsValid_one htaps
  exact ⟨nextValue_width_one hr, feedbackBit_one r⟩

/-! ### STEP -/

/-- Settles O16: the two ends of STEP, and the bit that enters the register at the top. -/
theorem stepFollowsPseudocode : Obligations.StepFollowsPseudocode :=
  ⟨rfl, fun _ => ⟨exec_step_notReady, fun e he =>
    ⟨exec_step_ready he, fun hr hw => bitAt_nextValue_top e.taps hw hr⟩⟩⟩

/-! ### RUN -/

/-- R66: element `i` of the captured bits is the bit that step `i + 1` returns. -/
theorem Engine.bits_getElem? (e : Engine) {n i : Nat} (h : i < n) : (e.bits n)[i]? = some (e.bitAfter i) := by
  simp [Engine.bits, h]

/-- Settles O18: RUN's loop ends at the first recurrence or at the guard (`exec_run_cases`), and the capture is
`Engine.bits`. -/
theorem runFollowsPseudocode : Obligations.RunFollowsPseudocode := by
  intro s c
  refine ⟨rfl, exec_run_notReady c, fun e he => ⟨fun n hfirst hguard => ?_, exec_run_exhausted c he⟩⟩
  exact ⟨e.bits (min n c), e.bits_length _, fun i => e.bits_getElem?, exec_run_recurred c he hfirst hguard⟩

end Sys2Proof.Machine
end

section
/-! Proofs for the family `41_adapter.md`: the command XOR (R78), its involution (R81) and its independence of the
Engine (R83). -/

namespace Sys2Proof.Machine

/-! ### The two ends of XOR -/

/-- R78: a keystream shorter than the data is an error, and there is no partial result. -/
theorem exec_xor_exhausted {d k : BitSeq} (s : State) (h : k.length < d.length) :
    exec (.xor d k) s = .next (s.raise .keystreamExhausted) := by
  rw [exec_xor, State.xorCombine_exhausted s h]

/-- R78: a keystream that reaches as far as the data. -/
theorem exec_xor_ok {d k : BitSeq} (s : State) (h : d.length ≤ k.length) :
    exec (.xor d k) s = .next (s.respond .ok (.result (xorBits d k))) := by
  rw [exec_xor, State.xorCombine_ok s h]

theorem answers_xor_ok {d k : BitSeq} (s : State) (h : d.length ≤ k.length) :
    Answers (.xor d k) s (s.respond .ok (.result (xorBits d k))) ⟨.ok, .result (xorBits d k)⟩ :=
  ⟨exec_xor_ok s h, rfl, rfl⟩

/-- Settles O32: the two ends of XOR, with `xorBits` as the result. -/
theorem xorFollowsPseudocode : Obligations.XorFollowsPseudocode := by
  intro s d k
  refine ⟨rfl, exec_xor_exhausted s, fun hnot => ?_⟩
  have hle : d.length ≤ k.length := not_lt.1 hnot
  exact ⟨xorBits d k, xorBits_length hle, fun _ _ _ => xorBits_getElem?, exec_xor_ok s hle⟩

/-! ### The same keystream twice -/

/-- Settles O35: the first result is as long as the data, so the keystream suffices again, and `xorBits_xorBits`. -/
theorem xorIsInvolution : Obligations.XorIsInvolution := by
  intro s s' p k hle
  have hle' : (xorBits p k).length ≤ k.length := (xorBits_length hle).trans_le hle
  have hback := answers_xor_ok s' hle'
  rw [xorBits_xorBits hle] at hback
  exact ⟨_, _, _, answers_xor_ok s hle, hback⟩

/-! ### Independence of the Engine -/

/-- R83: XOR's effect is the same whichever block stands beside it: the block is neither read nor written. -/
theorem State.xorCombine_withBlock (s : State) (b : Block) (d k : BitSeq) :
    (s.withBlock b).xorCombine d k = (s.xorCombine d k).withBlock b := by
  rcases lt_or_ge k.length d.length with hlt | hle
  · rw [State.xorCombine_exhausted _ hlt, State.xorCombine_exhausted _ hlt]
    rfl
  · rw [State.xorCombine_ok _ hle, State.xorCombine_ok _ hle]
    rfl

/-- Settles O37: XOR's effect keeps the block and commutes with putting another one in its place. -/
theorem xorIsIndependentOfTheEngine : Obligations.XorIsIndependentOfTheEngine := by
  intro s b d k
  have hother : exec (.xor d k) (s.withBlock b) = .next ((s.xorCombine d k).withBlock b) := by
    rw [exec_xor, State.xorCombine_withBlock]
  exact ⟨_, _, answers_xorCombine (exec_xor d k s), State.xorCombine_block s d k, hother⟩

end Sys2Proof.Machine
end

section
/-! Proofs for the family `60_exceptions.md`: which command raises which status (R87, R88, R90, R91), and what an error
leaves (R94). -/

namespace Sys2Proof.Machine

/-! ### What an error leaves -/

/-- R94: a raised error carries no payload and keeps the block, except that `NonTerminating` leaves the READY Engine
FAULTED with the steps of RUN's loop made. -/
theorem Performs.error {b b' : Block} {i : Instr} {r : Response} (h : Performs b i r b') (hr : r.status ≠ .ok) :
    r.payload = .none ∧ (r.status ≠ .nonTerminating → b' = b) ∧
    (r.status = .nonTerminating → ∃ e, b = .ready e ∧ b' = .faulted (e.after (2 ^ e.width + 1))) := by
  cases h with
  | initOk | stepOk | runOk | xorOk => exact absurd rfl hr
  | initBadSeed | initBadTaps | stepNotReady | runNotReady | xorExhausted => exact ⟨rfl, fun _ => rfl, nofun⟩
  | runExhausted he _ => exact ⟨rfl, fun hne => absurd rfl hne, fun _ => ⟨_, he, rfl⟩⟩

/-- Settles O40: it is `Performs.error`, read from an answer. -/
theorem errorsKeepTheBlockExceptNonTerminating : Obligations.ErrorsKeepTheBlockExceptNonTerminating :=
  fun _ _ _ _ hanswers => hanswers.performs.error

/-! ### Which command raises a status

Each equivalence has two halves: the ways a command can end with the status (`cases` on `Performs`), and the command
that raises it (`Answers.status_eq_of_raise`). -/

variable {s t : State} {i : Instr} {r : Response}

/-- The end of a command without the block it leaves, so that `cases` meets a variable there. -/
theorem Answers.exists_performs (h : Answers i s t r) : ∃ b', Performs s.block i r b' := ⟨t.block, h.performs⟩

theorem Answers.status_eq_of_raise {st : Status} (h : Answers i s t r) (hraise : exec i s = .next (s.raise st)) :
    r.status = st := by
  obtain ⟨-, rfl⟩ := h.unique (answers_raise hraise)
  rfl

/-- R55, R78: a command that stands for XOR raises `KeystreamExhausted` where XOR does. -/
theorem exec_exhausted_of_expand {d k : BitSeq} (s : State) (hx : i.expand = .xor d k) (hlt : k.length < d.length) :
    exec i s = .next (s.raise .keystreamExhausted) := by
  rw [← State.xorCombine_exhausted s hlt]
  rcases expand_eq_xor.1 hx with rfl | rfl | rfl
  · exact exec_xor d k s
  · exact exec_encrypt d k s
  · exact exec_decrypt d k s

/-- R87: `InvalidSeed` comes from the seed test of INIT alone. -/
theorem Answers.invalidSeed_iff (h : Answers i s t r) :
    r.status = .invalidSeed ↔ ∃ seed width taps, i = .init seed width taps ∧ seedTestFails seed width = true := by
  constructor
  · intro hr
    obtain ⟨_, hperforms⟩ := h.exists_performs
    cases hperforms with
    | initBadSeed hseed => exact ⟨_, _, _, rfl, hseed⟩
    | _ => cases hr
  · rintro ⟨seed, width, taps, rfl, hseed⟩
    exact h.status_eq_of_raise (exec_init_invalidSeed taps s hseed)

/-- R90: `InvalidConfig` comes from the taps test of INIT alone, which is reached when the seed test passes. -/
theorem Answers.invalidConfig_iff (h : Answers i s t r) :
    r.status = .invalidConfig ↔ ∃ seed width taps, i = .init seed width taps ∧
      seedTestFails seed width = false ∧ tapsTestFails taps width = true := by
  constructor
  · intro hr
    obtain ⟨_, hperforms⟩ := h.exists_performs
    cases hperforms with
    | initBadTaps hseed htaps => exact ⟨_, _, _, rfl, hseed, htaps⟩
    | _ => cases hr
  · rintro ⟨seed, width, taps, rfl, hseed, htaps⟩
    exact h.status_eq_of_raise (exec_init_invalidConfig s hseed htaps)

/-- R88: `KeystreamExhausted` comes from the length test of XOR and its aliases alone. -/
theorem Answers.keystreamExhausted_iff (h : Answers i s t r) :
    r.status = .keystreamExhausted ↔ ∃ d k : BitSeq, i.expand = .xor d k ∧ k.length < d.length := by
  constructor
  · intro hr
    obtain ⟨_, hperforms⟩ := h.exists_performs
    cases hperforms with
    | xorExhausted hx hlt => exact ⟨_, _, hx, hlt⟩
    | _ => cases hr
  · rintro ⟨d, k, hx, hlt⟩
    exact h.status_eq_of_raise (exec_exhausted_of_expand s hx hlt)

/-- R91: `NotReady` comes from the mode test of STEP and RUN alone. -/
theorem Answers.notReady_iff (h : Answers i s t r) :
    r.status = .notReady ↔ (i = .step ∨ ∃ c, i = .run c) ∧ s.mode ≠ .ready := by
  constructor
  · intro hr
    obtain ⟨_, hperforms⟩ := h.exists_performs
    cases hperforms with
    | stepNotReady hmode => exact ⟨.inl rfl, hmode⟩
    | runNotReady hmode => exact ⟨.inr ⟨_, rfl⟩, hmode⟩
    | _ => cases hr
  · rintro ⟨rfl | ⟨c, rfl⟩, hmode⟩
    · exact h.status_eq_of_raise (exec_step_notReady hmode)
    · exact h.status_eq_of_raise (exec_run_notReady c hmode)

/-- Settles O41: one equivalence for each status, with the two tests of INIT as the conditions of R57; the block and the
payload are those of any error but `NonTerminating`. -/
theorem operandErrorsRaisedExactly : Obligations.OperandErrorsRaisedExactly := by
  intro i s t r hanswers
  simp only [← seedTestFails_eq_true, ← tapsTestFails_eq_true, Bool.not_eq_true]
  refine ⟨hanswers.invalidSeed_iff, hanswers.invalidConfig_iff, hanswers.keystreamExhausted_iff, fun hr => ?_⟩
  obtain ⟨hok, hne⟩ : r.status ≠ .ok ∧ r.status ≠ .nonTerminating := by
    rcases hr with hr | hr | hr <;> simp [hr]
  obtain ⟨hpayload, hblock, -⟩ := hanswers.performs.error hok
  exact ⟨hblock hne, hpayload⟩

/-- Settles O42: the equivalence for `NotReady`, and the block that any error but `NonTerminating` keeps. -/
theorem notReadyRaisedExactly : Obligations.NotReadyRaisedExactly := by
  intro i s t r hanswers
  refine ⟨hanswers.notReady_iff, fun hr => ?_⟩
  obtain ⟨-, hblock, -⟩ := hanswers.performs.error (by simp [hr])
  exact hblock (by simp [hr])

end Sys2Proof.Machine
end

section
/-! Proofs for the encoding (R42 to R46, R55), the step around a command (R38, R103, R104) and the block after reset
(R105). -/

namespace Sys2Proof.Machine

/-! ### Records -/

/-- Settles O1: each record is one of the decoder's patterns. -/
theorem commandRecordsDecode : Obligations.CommandRecordsDecode := ⟨rfl, rfl, rfl, rfl⟩

/-- Settles O2, command by command. -/
theorem decodeInvertsEncode : Obligations.DecodeInvertsEncode := by
  intro i
  cases i with
  | init | step | run => rfl
  | xor | encrypt | decrypt => rfl

variable {fields : List Field} {i : Instr}

/-- R43: the INIT format accepts the records of INIT only. -/
theorem encode_of_decodeInit (h : decodeInit fields = .ok i) : i.expand = i ∧ encode i = ⟨opInit, fields⟩ := by
  unfold decodeInit at h
  split at h <;> cases h
  exact ⟨rfl, rfl⟩

/-- R44: the STEP format accepts the record of STEP only. -/
theorem encode_of_decodeStep (h : decodeStep fields = .ok i) : i.expand = i ∧ encode i = ⟨opStep, fields⟩ := by
  unfold decodeStep at h
  split at h <;> cases h
  exact ⟨rfl, rfl⟩

/-- R45: the RUN format accepts the records of RUN only. -/
theorem encode_of_decodeRun (h : decodeRun fields = .ok i) : i.expand = i ∧ encode i = ⟨opRun, fields⟩ := by
  unfold decodeRun at h
  split at h <;> cases h
  exact ⟨rfl, rfl⟩

/-- R46: the XOR format accepts the records of XOR only. -/
theorem encode_of_decodeXor (h : decodeXor fields = .ok i) : i.expand = i ∧ encode i = ⟨opXor, fields⟩ := by
  unfold decodeXor at h
  split at h <;> cases h
  exact ⟨rfl, rfl⟩

/-- R52: all four opcodes are defined. -/
theorem eq_opXor_of_ne {op : BitVec 2} (hinit : op ≠ opInit) (hstep : op ≠ opStep) (hrun : op ≠ opRun) :
    op = opXor := by
  unfold opInit at hinit
  unfold opStep at hstep
  unfold opRun at hrun
  unfold opXor
  bv_omega

/-- R53: the opcode selects the format, and the format fixes the command. -/
theorem encode_of_decode {c : CommandRecord} (h : decode c = .ok i) : i.expand = i ∧ encode i = c := by
  obtain ⟨op, fields⟩ := c
  unfold decode at h
  split at h
  · next hop => obtain rfl : op = opInit := hop; exact encode_of_decodeInit h
  split at h
  · next hop => obtain rfl : op = opStep := hop; exact encode_of_decodeStep h
  split at h
  · next hop => obtain rfl : op = opRun := hop; exact encode_of_decodeRun h
  next hinit hstep hrun => obtain rfl : op = opXor := eq_opXor_of_ne hinit hstep hrun; exact encode_of_decodeXor h

/-- Settles O3: the formats accept no other record, and O2 reads a command's own record back. -/
theorem decodeAcceptsExactlyTheFormats : Obligations.DecodeAcceptsExactlyTheFormats := by
  intro c i
  refine ⟨encode_of_decode, ?_⟩
  rintro ⟨hexpand, rfl⟩
  rw [decodeInvertsEncode i, hexpand]

/-! ### One step -/

/-- Settles O5: it is `step_command`. -/
theorem stepRunsDecodedCommand : Obligations.StepRunsDecodedCommand := fun _ _ _ _ => step_command

/-- A record just presented is the next to be performed, in the state before it was presented. -/
theorem step_presentNext (s : State) {c : CommandRecord} (hd : decode c = .ok i) :
    step (s.presentNext c) = exec i s := step_command (State.presentNext_events s c) hd

/-- Settles O4, word by word. -/
theorem tableWordRunsNext : Obligations.TableWordRunsNext := by
  intro s w hw
  interval_cases w
  · exact ⟨.init 0 0 0, rfl, step_presentNext s rfl⟩
  · exact ⟨.step, rfl, step_presentNext s rfl⟩
  · exact ⟨.run 0, rfl, step_presentNext s rfl⟩
  · exact ⟨.xor [] [], rfl, step_presentNext s rfl⟩

/-- Settles O6: it is `step_reset`. -/
theorem resetEventDiscardsEngine : Obligations.ResetEventDiscardsEngine :=
  fun _ _ hevents => ⟨step_reset hevents, Block.mode_unconfigured, Block.engine?_unconfigured⟩

/-- Settles O7: it is `step_idle`. -/
theorem idleBlockKeepsState : Obligations.IdleBlockKeepsState := fun _ => step_idle

/-- Settles O8: it is `step_malformed`. -/
theorem malformedRecordRefused : Obligations.MalformedRecordRefused := fun _ _ _ _ => step_malformed

/-- Settles O9: an unconfigured block is not READY, and INIT and XOR do not ask for the mode. -/
theorem blockAfterResetAnswers : Obligations.BlockAfterResetAnswers := by
  refine ⟨rfl, rfl, fun s hblock => ?_⟩
  have hmode : s.mode ≠ .ready := by simp [State.mode, hblock, State.reset]
  refine ⟨exec_step_notReady hmode, fun c => exec_run_notReady c hmode, fun seed width taps hseed htaps => ?_,
    fun d k hle => ⟨xorBits d k, exec_xor_ok s hle⟩⟩
  exact exec_init_ok s (seedValid_iff.1 hseed) (tapsValid_iff.1 htaps)

end Sys2Proof.Machine
end

section
/-! Proofs about INIT's status (R57, R58) and the corner cases of STEP (R64). -/

namespace Sys2Proof.Machine

/-! ### INIT -/

/-- R58: a register of no bits has no legal seed. -/
theorem seedTestFails_width_zero (seed : Nat) : seedTestFails seed 0 = true := by
  rw [seedTestFails_eq_true, pow_zero]
  omega

/-- Settles O11: the three ends of INIT, with validity as the outcome of the tests. -/
theorem initStatusClosedForm : Obligations.InitStatusClosedForm := by
  intro s seed width taps
  simp only [seedValid_iff, tapsValid_iff]
  have hzero : width = 0 → seedTestFails seed width = true := by
    rintro rfl
    exact seedTestFails_width_zero seed
  rcases exec_init_cases seed width taps s with ⟨hseed, hs⟩ | ⟨hseed, htaps, hs⟩ | ⟨hseed, htaps, hs⟩
  · exact ⟨_, _, answers_raise hs, by simp [hseed]⟩
  · exact ⟨_, _, answers_raise hs, by simpa [hseed, htaps] using hzero⟩
  · exact ⟨_, _, answers_respond hs, by simpa [hseed, htaps] using hzero⟩

/-- R50, R58: a legal tap set is a nonzero mask below 2^width. -/
theorem tapsValid_iff_mask {taps width : Nat} : tapsValid taps width ↔ 1 ≤ taps ∧ taps < 2 ^ width := by
  rw [tapsValid, exists_bitAt_iff, bits_below_iff, Nat.one_le_iff_ne_zero]

/-- A next state answered `OK` is not the one an error answers. -/
theorem raise_ne_ok {s t : State} {st : Status} (hst : st ≠ .ok) (ht : t.responses = s.responses ++ [⟨.ok, .none⟩]) :
    s.raise st ≠ t := by
  rintro rfl
  simp [hst] at ht

/-- Settles O12: the two tests of INIT in mask form; a failed test answers an error, never `OK`. -/
theorem initAcceptsNonzeroMasksBelowWidth : Obligations.InitAcceptsNonzeroMasksBelowWidth := by
  intro s seed width taps
  have htests : (1 ≤ seed ∧ seed < 2 ^ width ∧ 1 ≤ taps ∧ taps < 2 ^ width) ↔
      seedTestFails seed width = false ∧ tapsTestFails taps width = false := by
    rw [seedTestFails_eq_false, ← tapsValid_iff, tapsValid_iff_mask, and_assoc]
  rw [htests]
  constructor
  · intro hok
    rcases exec_init_cases seed width taps s with ⟨-, hs⟩ | ⟨-, -, hs⟩ | ⟨hseed, htaps, -⟩
    · exact absurd (Host.Outcome.next.inj (hs.symm.trans hok)) (raise_ne_ok nofun rfl)
    · exact absurd (Host.Outcome.next.inj (hs.symm.trans hok)) (raise_ne_ok nofun rfl)
    · exact ⟨hseed, htaps⟩
  · rintro ⟨hseed, htaps⟩
    exact exec_init_ok s hseed htaps

/-! ### STEP on 0 and on all ones -/

theorem Engine.advance_eq {e : Engine} {r : Nat} (h : nextValue e.width e.taps e.register = r) :
    e.advance = { e with register := r, stepCount := e.stepCount + 1 } := by
  rw [← h]
  rfl

/-- R64: on all ones the feedback bit is the parity of the number of taps. -/
theorem feedbackBit_allOnes {taps width : Nat} (h : taps < 2 ^ width) :
    feedbackBit taps (2 ^ width - 1) = decide ((List.range width).countP (bitAt taps) % 2 = 1) := by
  have hones : (List.range width).countP (fun t => bitAt taps t && bitAt (2 ^ width - 1) t) =
      (List.range width).countP (bitAt taps) := by
    refine List.countP_congr fun t ht => ?_
    simp [bitAt, Nat.testBit_two_pow_sub_one, List.mem_range.1 ht]
  rw [feedbackBit_eq_parity _ h, hones]

/-- R64: all ones with a 1 fed back is all ones again, with a 0 it is 2^(W-1) - 1. -/
theorem nextValue_allOnes (taps : Nat) {width : Nat} (hw : 1 ≤ width) :
    nextValue width taps (2 ^ width - 1) =
      if feedbackBit taps (2 ^ width - 1) = true then 2 ^ width - 1 else 2 ^ (width - 1) - 1 := by
  obtain ⟨n, rfl⟩ := Nat.exists_eq_add_of_le' hw
  have hpow : 2 ^ (n + 1) = 2 ^ n * 2 := pow_succ 2 n
  have hpos := Nat.two_pow_pos n
  rw [nextValue_eq_add taps hw (by omega), Nat.add_sub_cancel]
  cases feedbackBit taps (2 ^ (n + 1) - 1) with
  | true => rw [if_pos rfl, Bool.toNat_true]; omega
  | false => rw [if_neg Bool.false_ne_true, Bool.toNat_false]; omega

/-- Settles O17: the next-state value and the feedback bit of 0 and of all ones, put into STEP. -/
theorem stepOnZeroAndAllOnes : Obligations.StepOnZeroAndAllOnes := by
  intro s e hready hw htaps
  constructor
  · intro hzero
    have hnext : nextValue e.width e.taps e.register = e.register := by rw [hzero, nextValue_zero]
    rw [exec_step_ready hready, Engine.advance_eq hnext, Engine.feedback, hzero, feedbackBit_zero]
    rfl
  · intro hones
    have hparity := feedbackBit_allOnes (tapsValid_iff_mask.1 htaps).2
    have hnext := nextValue_allOnes e.taps hw
    rw [hparity] at hnext
    rw [exec_step_ready hready, Engine.feedback]
    by_cases hodd : (List.range e.width).countP (bitAt e.taps) % 2 = 1
    · simp only [hodd, decide_true, if_true] at hparity hnext ⊢
      rw [← hones] at hparity hnext
      rw [Engine.advance_eq hnext, hparity]
      rfl
    · simp only [hodd, decide_false, if_false, Bool.false_eq_true] at hparity hnext ⊢
      rw [← hones] at hparity hnext
      rw [Engine.advance_eq hnext, hparity]
      rfl

end Sys2Proof.Machine
end

section
/-! Proofs about XOR, ENCRYPT and DECRYPT (R55, R78 to R84). -/

namespace Sys2Proof.Machine

/-- R55, R78: a command that stands for XOR completes where XOR does. -/
theorem exec_ok_of_expand {i : Instr} {d k : BitSeq} (s : State) (hx : i.expand = .xor d k)
    (hle : d.length ≤ k.length) : exec i s = .next (s.respond .ok (.result (xorBits d k))) := by
  rw [← State.xorCombine_ok s hle]
  rcases expand_eq_xor.1 hx with rfl | rfl | rfl
  · exact exec_xor d k s
  · exact exec_encrypt d k s
  · exact exec_decrypt d k s

/-- Settles O34: the ciphertext is `xorBits p k`, and `xorBits_xorBits` gives the plaintext back. -/
theorem decryptUndoesEncrypt : Obligations.DecryptUndoesEncrypt := by
  intro p k hle
  have hlength := xorBits_length hle
  refine ⟨xorBits p k, hlength, fun _ _ _ => xorBits_getElem?, fun s => ⟨exec_ok_of_expand s rfl hle, ?_⟩⟩
  have hback : exec (.decrypt (xorBits p k) k) s = _ := exec_ok_of_expand s rfl (hlength.trans_le hle)
  rw [xorBits_xorBits hle] at hback
  exact hback

/-- R82: the keystream beyond the data is not read. -/
theorem xorBits_take (d k : BitSeq) : xorBits d (k.take d.length) = xorBits d k := by
  induction d generalizing k with
  | nil => rfl
  | cons x d ih =>
    cases k with
    | nil => rfl
    | cons y k => exact congrArg ((x ^^ y) :: ·) (ih k)

/-- Settles O36: both keystreams pass the length test and give the result of their common part. -/
theorem xorReadsOnlyItsPrefix : Obligations.XorReadsOnlyItsPrefix := by
  intro s d k k' hle hle' htake
  refine ⟨?_, exec_xor_ok s (Nat.zero_le _)⟩
  rw [exec_xor_ok s hle, exec_xor_ok s hle', ← xorBits_take d k, htake, xorBits_take d k']

/-- Settles O38: the two ends of XOR on either side of the boundary. -/
theorem xorExhaustionBoundary : Obligations.XorExhaustionBoundary := by
  intro s d k
  constructor
  · intro hshort
    exact ⟨_, answers_raise (exec_xor_exhausted s (by omega))⟩
  · intro hequal
    exact ⟨_, _, answers_xor_ok s hequal.ge⟩

end Sys2Proof.Machine
end

section
/-! Proofs about what a command reads and writes: the block alone decides (R69), `step_count` is unread (R20, R99), the
mode (R15, R96), the frames, and the invariant of the Engine (R25, R26). -/

namespace Sys2Proof.Machine

variable {s : State} {b b' c : Block} {i : Instr} {r : Response}

/-! ### What a command reads -/

/-- The converse of `Answers.performs`: a way to end that the block of a state allows is how the command ends there. -/
theorem Performs.exists_answers (h : Performs s.block i r b') : ∃ t, Answers i s t r ∧ t.block = b' := by
  cases h with
  | initBadSeed hseed => exact ⟨_, answers_raise (exec_init_invalidSeed _ s hseed), rfl⟩
  | initBadTaps hseed htaps => exact ⟨_, answers_raise (exec_init_invalidConfig s hseed htaps), rfl⟩
  | initOk hseed htaps => exact ⟨_, answers_respond (exec_init_ok s hseed htaps), rfl⟩
  | stepNotReady hmode => exact ⟨_, answers_raise (exec_step_notReady hmode), rfl⟩
  | stepOk hready => exact ⟨_, answers_respond (exec_step_ready hready), rfl⟩
  | runNotReady hmode => exact ⟨_, answers_raise (exec_run_notReady _ hmode), rfl⟩
  | runOk hready hguard hfirst => exact ⟨_, answers_respond (exec_run_recurred _ hready hfirst hguard), rfl⟩
  | runExhausted hready hmiss => exact ⟨_, answers_respond (exec_run_exhausted _ hready hmiss), rfl⟩
  | xorExhausted hx hlt => exact ⟨_, answers_raise (exec_exhausted_of_expand s hx hlt), rfl⟩
  | xorOk hx hle => exact ⟨_, answers_respond (exec_ok_of_expand s hx hle), rfl⟩

/-- A command ends in the same way wherever the block is the same. -/
theorem exists_answers_of_block_eq (i : Instr) {s s' : State} (hblock : s.block = s'.block) :
    ∃ t t' r, Answers i s t r ∧ Answers i s' t' r ∧ t.block = t'.block := by
  obtain ⟨t, r, hanswers, hperforms⟩ := exec_performs i s
  rw [hblock] at hperforms
  obtain ⟨t', hanswers', hblock'⟩ := hperforms.exists_answers
  exact ⟨t, t', r, hanswers, hanswers', hblock'.symm⟩

@[simp] theorem Block.mode_forgetCount (b : Block) : b.forgetCount.mode = b.mode := by
  cases b <;> rfl

theorem Block.mode_eq_of_forgetCount_eq (h : b.forgetCount = b'.forgetCount) : b.mode = b'.mode := by
  rw [← b.mode_forgetCount, h, b'.mode_forgetCount]

/-- Only the step count of a READY Engine can be what was forgotten. -/
theorem Block.eq_ready_of_forgetCount_eq {e : Engine} (h : (Block.ready e).forgetCount = b.forgetCount) :
    ∃ n, b = .ready { e with stepCount := n } := by
  cases b with
  | unconfigured | faulted => cases h
  | ready e' =>
    obtain ⟨w, x, m, v, n⟩ := e'
    cases e
    cases h
    exact ⟨n, rfl⟩

/-- R20: a block that differs in the step count alone ends a command in the same way. -/
theorem Performs.of_forgetCount_eq (h : Performs b i r c) (hb : b.forgetCount = b'.forgetCount) :
    ∃ c', Performs b' i r c' ∧ c.forgetCount = c'.forgetCount := by
  have hmode := Block.mode_eq_of_forgetCount_eq hb
  cases h with
  | initBadSeed hseed => exact ⟨b', .initBadSeed hseed, hb⟩
  | initBadTaps hseed htaps => exact ⟨b', .initBadTaps hseed htaps, hb⟩
  | initOk hseed htaps => exact ⟨_, .initOk hseed htaps, rfl⟩
  | stepNotReady hne => exact ⟨b', .stepNotReady (hmode ▸ hne), hb⟩
  | runNotReady hne => exact ⟨b', .runNotReady (hmode ▸ hne), hb⟩
  | xorExhausted hx hlt => exact ⟨b', .xorExhausted hx hlt, hb⟩
  | xorOk hx hle => exact ⟨b', .xorOk hx hle, hb⟩
  | @stepOk e hready =>
    subst hready
    obtain ⟨n, rfl⟩ := Block.eq_ready_of_forgetCount_eq hb
    exact ⟨_, .stepOk (e := { e with stepCount := n }) rfl, rfl⟩
  | @runOk _ _ e hready hguard hfirst =>
    subst hready
    obtain ⟨n, rfl⟩ := Block.eq_ready_of_forgetCount_eq hb
    exact ⟨_, .runOk (e := { e with stepCount := n }) rfl hguard hfirst, rfl⟩
  | @runExhausted _ e hready hmiss =>
    subst hready
    obtain ⟨n, rfl⟩ := Block.eq_ready_of_forgetCount_eq hb
    exact ⟨_, .runExhausted (e := { e with stepCount := n }) rfl hmiss, rfl⟩

/-- A command answered in one state is answered alike where only the step count may differ. -/
theorem Answers.of_forgetCount_eq {s s' t : State} (h : Answers i s t r)
    (hb : s.block.forgetCount = s'.block.forgetCount) :
    ∃ t', Answers i s' t' r ∧ t.block.forgetCount = t'.block.forgetCount := by
  obtain ⟨c', hperforms, hforget⟩ := h.performs.of_forgetCount_eq hb
  obtain ⟨t', hanswers', rfl⟩ := hperforms.exists_answers
  exact ⟨t', hanswers', hforget⟩

/-- Settles O24: it is `Answers.of_forgetCount_eq` for the answer that `exec_performs` gives. -/
theorem stepCountIsUnread : Obligations.StepCountIsUnread := by
  intro i s s' hb
  obtain ⟨t, r, hanswers, -⟩ := exec_performs i s
  obtain ⟨t', hanswers', hforget⟩ := hanswers.of_forgetCount_eq hb
  exact ⟨t, t', r, hanswers, hanswers', hforget⟩

/-- A RUN that ends `OK`: it started READY, its period is the first recurrence, and it kept that many steps. -/
theorem Answers.run_ok {s t : State} {captureLimit p : Nat} {ks : BitSeq}
    (h : Answers (.run captureLimit) s t ⟨.ok, .run p ks⟩) :
    ∃ e, s.block = .ready e ∧ e.FirstRecurrence p ∧ ks = e.bits (min p captureLimit) ∧
      t.block = .ready (e.after p) := by
  generalize hb' : t.block = b'
  have hperforms := hb' ▸ h.performs
  cases hperforms with
  | runOk hready _ hfirst => exact ⟨_, hready, hfirst, rfl, rfl⟩

/-- R65: after a recurrence the register is the seed again. -/
theorem Engine.FirstRecurrence.after_eq {e : Engine} {p : Nat} (h : e.FirstRecurrence p) :
    e.after p = { e with register := e.seed, stepCount := e.stepCount + p } := by
  rw [Engine.after, h.2.1]

/-- Settles O22: the block alone decides; and a RUN from the seed that ends `OK` changes the step count only, which
nothing reads. -/
theorem responsesAreDeterminedAndRunRepeats : Obligations.ResponsesAreDeterminedAndRunRepeats := by
  refine ⟨fun i _ _ => exists_answers_of_block_eq i, fun s t e c p ks hready hseed hrun => ?_⟩
  obtain ⟨e', hready', hfirst, -, hblock⟩ := hrun.run_ok
  obtain rfl : e = e' := Block.ready.inj (hready.symm.trans hready')
  have hforget : s.block.forgetCount = t.block.forgetCount := by
    rw [hready, hblock, Engine.after, hfirst.2.1.trans hseed.symm]
    rfl
  obtain ⟨u, hagain, -⟩ := hrun.of_forgetCount_eq hforget
  exact ⟨u, hagain⟩

/-! ### What a command writes -/

/-- The Engine a command leaves: the new one of a successful INIT, or the old one some steps on. -/
theorem Performs.engine_cases (h : Performs b i r b') {e' : Engine} (he' : b'.engine? = some e') :
    (∃ seed width taps, i = .init seed width taps ∧ seedTestFails seed width = false ∧
      tapsTestFails taps width = false ∧ e' = Engine.fresh seed width taps) ∨
    ∃ e k, b.engine? = some e ∧ e' = e.after k := by
  cases h with
  | initBadSeed | initBadTaps | stepNotReady | runNotReady | xorExhausted | xorOk => exact .inr ⟨e', 0, he', rfl⟩
  | initOk hseed htaps =>
    cases he'
    exact .inl ⟨_, _, _, rfl, hseed, htaps, rfl⟩
  | stepOk hready =>
    cases he'
    exact .inr ⟨_, 1, by rw [hready, Block.engine?_ready], rfl⟩
  | runOk hready =>
    cases he'
    exact .inr ⟨_, _, by rw [hready, Block.engine?_ready], rfl⟩
  | runExhausted hready =>
    cases he'
    exact .inr ⟨_, _, by rw [hready, Block.engine?_ready], rfl⟩

/-- STEP and RUN neither make an Engine nor discard one. -/
theorem Performs.engine?_isSome (h : Performs b i r b') (hi : i = .step ∨ ∃ cl, i = .run cl) :
    b'.engine?.isSome = b.engine?.isSome := by
  cases h with
  | initBadSeed | initBadTaps | initOk => simp at hi
  | stepNotReady | runNotReady | xorExhausted | xorOk => rfl
  | stepOk hready => rw [hready]; rfl
  | runOk hready => rw [hready]; rfl
  | runExhausted hready => rw [hready]; rfl

theorem Block.engine?_eq_none : b.engine? = none ↔ b = .unconfigured := by
  cases b <;> simp

/-- STEP and RUN keep an absent Engine absent, and of a present one the width, the seed and the taps. -/
theorem Performs.keeps_config (h : Performs b i r b') (hi : i = .step ∨ ∃ cl, i = .run cl) :
    (b.engine? = none → b' = b) ∧ ∀ e, b.engine? = some e → ∃ e', b'.engine? = some e' ∧
      e'.width = e.width ∧ e'.seed = e.seed ∧ e'.taps = e.taps := by
  have hsome := h.engine?_isSome hi
  constructor
  · intro hnone
    rw [hnone, Option.isSome_none, Option.isSome_eq_false_iff, Option.isNone_iff_eq_none] at hsome
    rw [Block.engine?_eq_none.1 hnone, Block.engine?_eq_none.1 hsome]
  · intro e he
    rw [he, Option.isSome_some] at hsome
    obtain ⟨e', he'⟩ := Option.isSome_iff_exists.1 hsome
    rcases h.engine_cases he' with ⟨_, _, _, rfl, -⟩ | ⟨e₀, k, he₀, rfl⟩
    · simp at hi
    · obtain rfl : e₀ = e := Option.some.inj (he₀.symm.trans he)
      exact ⟨_, he', rfl, rfl, rfl⟩

/-- R83: XOR and the two commands that stand for it leave the block. -/
theorem Performs.block_of_expand (h : Performs b i r b') {d k : BitSeq} (hx : i.expand = .xor d k) : b' = b := by
  cases h with
  | xorExhausted | xorOk => rfl
  | initBadSeed | initBadTaps | initOk | stepNotReady | stepOk | runNotReady | runOk | runExhausted => cases hx

/-- Settles O45: the events and responses stand in `Answers`, the block's parts in `Performs`. -/
theorem commandFrames : Obligations.CommandFrames := by
  intro i s t hexec
  obtain ⟨r, hanswers⟩ := answers_of_exec hexec
  have hperforms := hanswers.performs
  obtain ⟨-, hresponses, hevents⟩ := hanswers
  refine ⟨hevents, by rw [hresponses, List.dropLast_concat], hperforms.keeps_config, ?_⟩
  rintro ⟨d, k, hx⟩
  exact hperforms.block_of_expand hx

/-! ### The mode -/

/-- R15: the commands that write the mode. -/
theorem Performs.mode_change (h : Performs b i r b') (hne : b'.mode ≠ b.mode) :
    (∃ seed width taps, i = .init seed width taps ∧ r.status = .ok ∧ b'.mode = .ready) ∨
    ∃ cl, i = .run cl ∧ r.status = .nonTerminating ∧ b.mode = .ready ∧ b'.mode = .faulted := by
  cases h with
  | initBadSeed | initBadTaps | stepNotReady | runNotReady | xorExhausted | xorOk => exact absurd rfl hne
  | initOk => exact .inl ⟨_, _, _, rfl, rfl, rfl⟩
  | stepOk hready => rw [hready] at hne; exact absurd rfl hne
  | runOk hready => rw [hready] at hne; exact absurd rfl hne
  | runExhausted hready => exact .inr ⟨_, rfl, rfl, by rw [hready, Block.mode_ready], rfl⟩

/-- Settles O43: of the three kinds of step an idle one keeps the mode, a reset makes it UNCONFIGURED, and a command
changes it as `Performs.mode_change` says. -/
theorem modeChangesOnlyAsListed : Obligations.ModeChangesOnlyAsListed := by
  intro s t hstep hne
  rcases step_cases hstep with ⟨-, rfl⟩ | ⟨rest, hevents, rfl⟩ | ⟨c, rest, i, hevents, hdecode, hexec⟩
  · exact absurd rfl hne
  · exact .inl ⟨rest, hevents, rfl⟩
  · obtain ⟨r, hanswers⟩ := answers_of_exec hexec
    exact .inr ⟨c, rest, i, r, hevents, hdecode, hanswers.2.1, hanswers.performs.mode_change hne⟩

/-- R96, R97: from FAULTED only a successful INIT goes on. -/
theorem Performs.from_faulted {e : Engine} (h : Performs (.faulted e) i r b') :
    (b' = .faulted e ∨ (r.status = .ok ∧ ∃ seed width taps,
      i = .init seed width taps ∧ b' = .ready (Engine.fresh seed width taps))) ∧
    ((i = .step ∨ ∃ cl, i = .run cl) → r = ⟨.notReady, .none⟩) := by
  cases h with
  | initBadSeed | initBadTaps => exact ⟨.inl rfl, by simp⟩
  | initOk => exact ⟨.inr ⟨rfl, _, _, _, rfl, rfl⟩, by simp⟩
  | stepNotReady | runNotReady => exact ⟨.inl rfl, fun _ => rfl⟩
  | stepOk hready => cases hready
  | runOk hready => cases hready
  | runExhausted hready => cases hready
  | xorExhausted hx | xorOk hx => rcases expand_eq_xor.1 hx with rfl | rfl | rfl <;> exact ⟨.inl rfl, by simp⟩

/-- Settles O44: it is `Performs.from_faulted`, read from an answer. -/
theorem faultedEngineStaysUntilInit : Obligations.FaultedEngineStaysUntilInit := by
  intro i s t r e hfaulted hanswers
  have hperforms := hanswers.performs
  rw [hfaulted] at hperforms
  exact hperforms.from_faulted

/-! ### The invariant -/

theorem Engine.Good.width_pos {e : Engine} (h : e.Good) : 1 ≤ e.width := width_pos_of_tapsValid h.taps_valid

theorem Engine.Good.registerAfter_lt {e : Engine} (h : e.Good) (k : Nat) : e.registerAfter k < 2 ^ e.width :=
  Engine.registerAfter_lt h.width_pos h.register_range k

/-- R17, R57: INIT starts the register at the seed. -/
theorem Engine.good_fresh {seed width taps : Nat} (hseed : seedValid seed width) (htaps : tapsValid taps width) :
    (Engine.fresh seed width taps).Good :=
  ⟨hseed, htaps, lt_two_pow_of_seedValid hseed, rfl⟩

/-- Steps keep a good Engine good. -/
theorem Engine.Good.after {e : Engine} (h : e.Good) (k : Nat) : (e.after k).Good := by
  refine ⟨h.seed_valid, h.taps_valid, h.registerAfter_lt k, ?_⟩
  rw [Engine.after_register, Engine.registerAfter, Engine.after_stepCount, Nat.add_comm e.stepCount k,
    Function.iterate_add_apply]
  exact congrArg _ h.register_traced

/-- Every command keeps a good Engine good. -/
theorem Performs.keeps_good (h : Performs b i r b') (hgood : ∀ e, b.engine? = some e → e.Good) :
    ∀ e', b'.engine? = some e' → e'.Good := by
  intro e' he'
  rcases h.engine_cases he' with ⟨seed, width, taps, -, hseed, htaps, rfl⟩ | ⟨e, k, he, rfl⟩
  · exact Engine.good_fresh (seedValid_iff.2 hseed) (tapsValid_iff.2 htaps)
  · exact (hgood e he).after k

/-- Settles O46: there is no Engine after reset. -/
theorem resetStateIsGood : Obligations.ResetStateIsGood := by
  intro e he
  cases he

/-- Settles O47: an idle step keeps the Engine, a reset leaves none, and a command keeps it good. -/
theorem stepKeepsGoodEngine : Obligations.StepKeepsGoodEngine := by
  intro s t hinv hstep
  rcases step_cases hstep with ⟨-, rfl⟩ | ⟨rest, -, rfl⟩ | ⟨c, rest, i, -, -, hexec⟩
  · exact hinv
  · exact resetStateIsGood
  · obtain ⟨r, hanswers⟩ := answers_of_exec hexec
    exact hanswers.performs.keeps_good hinv

/-! ### The maxima of a physical part -/

/-- R8: steps of a good Engine stay within the width it was built with. -/
theorem Engine.Fits.after {e : Engine} {lim : Config.Limits} (h : e.Fits lim) (hgood : e.Good) (k : Nat) :
    (e.after k).Fits lim := by
  obtain ⟨hwidth, hseed, htaps, -⟩ := h
  exact ⟨hwidth, hseed, htaps, (hgood.registerAfter_lt k).trans_le (Nat.pow_le_pow_right two_pos hwidth)⟩

/-- R8, R43: the Engine that a presentable INIT builds fits. -/
theorem Engine.fits_fresh {lim : Config.Limits} {seed width taps : Nat}
    (h : (Instr.init seed width taps).wellFormed lim = true) : (Engine.fresh seed width taps).Fits lim := by
  simp only [Instr.wellFormed, Bool.and_eq_true, decide_eq_true_eq] at h
  obtain ⟨⟨hseed, hwidth⟩, htaps⟩ := h
  exact ⟨hwidth, hseed, htaps, hseed⟩

/-- R8: data that can be presented is at most `DATA_MAX` long. -/
theorem length_le_dataMax {lim : Config.Limits} {d k : BitSeq} (h : i.wellFormed lim = true)
    (hx : i.expand = .xor d k) : d.length ≤ lim.dataMax := by
  have hwf : (Instr.xor d k).wellFormed lim = true := by
    rcases expand_eq_xor.1 hx with rfl | rfl | rfl <;> exact h
  simp only [Instr.wellFormed, Bool.and_eq_true, decide_eq_true_eq] at hwf
  exact hwf.1

/-- R8: the sequences that a presentable command answers are within the maxima. -/
theorem Performs.payload_le {lim : Config.Limits} (h : Performs b i r b') (hwf : i.wellFormed lim = true) :
    (∀ p ks, r.payload = .run p ks → ks.length ≤ lim.capMax) ∧
    (∀ bits, r.payload = .result bits → bits.length ≤ lim.dataMax) := by
  cases h with
  | runOk =>
    refine ⟨?_, nofun⟩
    rintro _ _ ⟨⟩
    rw [Engine.bits_length]
    exact (min_le_right _ _).trans (of_decide_eq_true hwf)
  | xorOk hx hle =>
    refine ⟨nofun, ?_⟩
    rintro _ ⟨⟩
    rw [xorBits_length hle]
    exact length_le_dataMax hwf hx
  | initBadSeed | initBadTaps | initOk | stepNotReady | stepOk | runNotReady | runExhausted | xorExhausted =>
    exact ⟨nofun, nofun⟩

/-- Settles O49: the Engine by `Performs.engine_cases`, the answer by `Performs.payload_le`. -/
theorem instanceMaximaSuffice : Obligations.InstanceMaximaSuffice := by
  intro lim i s t r hwf hinv hfits hanswers
  refine ⟨fun e' he' => ?_, hanswers.performs.payload_le hwf⟩
  rcases hanswers.performs.engine_cases he' with ⟨seed, width, taps, rfl, -, -, rfl⟩ | ⟨e, k, he, rfl⟩
  · exact Engine.fits_fresh hwf
  · exact (hfits e he).after (hinv e he) k

end Sys2Proof.Machine
end

section
/-! Proofs about RUN (R65 to R68, R74): the values it visits, the bound on its period, and RUN as repeated STEP. -/

namespace Sys2Proof.Machine

variable {e : Engine} {n : Nat}

/-! ### The values visited on the way to the seed -/

/-- R74: two equal values on the way to the seed would bring an earlier recurrence. -/
theorem Engine.FirstRecurrence.registerAfter_ne (h : e.FirstRecurrence n) {i j : Nat} (hij : i < j) (hj : j ≤ n)
    (hlt : j - i < n) : e.registerAfter i ≠ e.registerAfter j := by
  obtain ⟨-, hseed, hfirst⟩ := h
  intro heq
  refine hfirst (n - (j - i)) (by omega) (by omega) ?_
  calc e.registerAfter (n - (j - i)) = e.registerAfter (i + (n - j)) := by congr 1; omega
    _ = e.registerAfter (j + (n - j)) := by
      simp only [Engine.registerAfter, Nat.add_comm _ (n - j), Function.iterate_add_apply] at heq ⊢
      rw [heq]
    _ = e.registerAfter n := by congr 1; omega
    _ = e.seed := hseed

/-- R73: once 0, the register stays 0. -/
theorem Engine.registerAfter_eq_zero {i j : Nat} (h : e.registerAfter i = 0) (hij : i ≤ j) : e.registerAfter j = 0 := by
  induction j, hij using Nat.le_induction with
  | base => exact h
  | succ j _ ih => rw [Engine.registerAfter_succ, ih, nextValue_zero]

/-- R74: a 0 on the way to the seed would make the seed 0. -/
theorem Engine.FirstRecurrence.registerAfter_ne_zero (h : e.FirstRecurrence n) (hgood : e.Good) {i : Nat} (hi : i ≤ n) :
    e.registerAfter i ≠ 0 := by
  intro hzero
  have hseed : e.seed = 0 := h.2.1.symm.trans (Engine.registerAfter_eq_zero hzero hi)
  have hpos := hgood.seed_valid.1
  omega

/-- The register values after each of the first `n` steps. -/
def Engine.visited (e : Engine) (n : Nat) : List Nat := (List.range n).map fun k => e.registerAfter (k + 1)

@[simp] theorem Engine.visited_length (e : Engine) (n : Nat) : (e.visited n).length = n := by simp [Engine.visited]

theorem Engine.FirstRecurrence.visited_nodup (h : e.FirstRecurrence n) : (e.visited n).Nodup := by
  refine List.Nodup.map_on (fun i hi j hj heq => ?_) List.nodup_range
  rw [List.mem_range] at hi hj
  rcases lt_trichotomy i j with hlt | rfl | hlt
  · exact absurd heq (h.registerAfter_ne (by omega) (by omega) (by omega))
  · rfl
  · exact absurd heq.symm (h.registerAfter_ne (by omega) (by omega) (by omega))

/-- R74: the values visited stand, each once, among the nonzero values of W bits. -/
theorem Engine.FirstRecurrence.visited_subperm (h : e.FirstRecurrence n) (hgood : e.Good) :
    (e.visited n).Subperm (List.range' 1 (2 ^ e.width - 1)) := by
  refine List.subperm_of_subset h.visited_nodup fun v hv => ?_
  obtain ⟨k, hk, rfl⟩ := List.mem_map.1 hv
  have hne := h.registerAfter_ne_zero hgood (i := k + 1) (List.mem_range.1 hk)
  have hlt := hgood.registerAfter_lt (k + 1)
  simp only [List.mem_range'_1]
  omega

/-- R74: the period of a good Engine is at most 2^W - 1. -/
theorem Engine.FirstRecurrence.le_of_good (h : e.FirstRecurrence n) (hgood : e.Good) : n ≤ 2 ^ e.width - 1 := by
  simpa using (h.visited_subperm hgood).length_le

/-- R67: the guard allows every period of a good Engine. -/
theorem Engine.FirstRecurrence.le_guard (h : e.FirstRecurrence n) (hgood : e.Good) : n ≤ 2 ^ e.width + 1 :=
  (h.le_of_good hgood).trans ((Nat.sub_le _ _).trans (Nat.le_succ _))

/-- A recurrence, whenever it comes, is preceded by a first one. -/
theorem Engine.exists_firstRecurrence {k : Nat} (hk : 1 ≤ k) (hseed : e.registerAfter k = e.seed) :
    ∃ p, p ≤ k ∧ e.FirstRecurrence p := by
  rcases e.firstRecurrence_or_none k with hfirst | hnone
  · exact hfirst
  · exact absurd hseed (hnone k hk le_rfl)

/-! ### The guard -/

variable {s t : State}

/-- R67: the guard is met exactly when all the steps it allows miss the seed. -/
theorem answers_nonTerminating_iff (c : Nat) (hready : s.block = .ready e) :
    (∃ t, Answers (.run c) s t ⟨.nonTerminating, .none⟩) ↔
      ∀ k, 1 ≤ k → k ≤ 2 ^ e.width + 1 → e.registerAfter k ≠ e.seed := by
  constructor
  · rintro ⟨t, hanswers⟩
    rcases exec_run_cases c hready with ⟨n, -, -, hrun⟩ | ⟨hmiss, -⟩
    · obtain ⟨-, habsurd⟩ := hanswers.unique (answers_respond hrun)
      cases habsurd
    · exact hmiss
  · intro hmiss
    exact ⟨_, answers_respond (exec_run_exhausted c hready hmiss)⟩

/-- Settles O19: the guard by `answers_nonTerminating_iff`; a good Engine that recurs at all does so first within its
2^W - 1 nonzero values. -/
theorem guardNeverCutsShortARecurrence : Obligations.GuardNeverCutsShortARecurrence := by
  intro s e c hready
  refine ⟨answers_nonTerminating_iff c hready, fun t hanswers => ?_, fun hgood k hk hseed => ?_⟩
  · obtain ⟨-, -, hblock⟩ := hanswers.performs.error nofun
    obtain ⟨e', hready', hfaulted⟩ := hblock rfl
    obtain rfl : e = e' := Block.ready.inj (hready.symm.trans hready')
    exact hfaulted
  · obtain ⟨p, hpk, hfirst⟩ := Engine.exists_firstRecurrence hk hseed
    exact ⟨_, p, _, answers_respond (exec_run_recurred c hready hfirst (hfirst.le_guard hgood)), hpk,
      hfirst.le_of_good hgood⟩

/-- Settles O20: the period is the first recurrence, on the way to which no value is 0 and none comes twice. -/
theorem periodBoundedByNonzeroStates : Obligations.PeriodBoundedByNonzeroStates := by
  intro s t e c p ks hready hgood hrun
  obtain ⟨e', hready', hfirst, -, -⟩ := hrun.run_ok
  obtain rfl : e = e' := Block.ready.inj (hready.symm.trans hready')
  exact ⟨hfirst.1, hfirst.le_of_good hgood, fun i hi => hfirst.registerAfter_ne_zero hgood hi.le,
    fun i j hij hj => hfirst.registerAfter_ne hij hj.le (by omega)⟩

/-! ### RUN after STEP commands -/

/-- R68: from the seed the first recurrence is the minimal period of the seed under the next-state value. -/
theorem Engine.firstRecurrence_iff_minimalPeriod (hreg : e.register = e.seed) :
    e.FirstRecurrence n ↔ 1 ≤ n ∧ Function.minimalPeriod (nextValue e.width e.taps) e.seed = n := by
  have hperiodic (k : Nat) :
      Function.IsPeriodicPt (nextValue e.width e.taps) k e.seed ↔ e.registerAfter k = e.seed := by
    rw [Engine.registerAfter, hreg, Function.IsPeriodicPt, Function.IsFixedPt]
  constructor
  · rintro ⟨hpos, hseed, hfirst⟩
    have hper := (hperiodic n).2 hseed
    refine ⟨hpos, (hper.minimalPeriod_le hpos).antisymm (not_lt.1 fun hlt => ?_)⟩
    exact hfirst _ (hper.minimalPeriod_pos hpos) hlt ((hperiodic _).1 (Function.isPeriodicPt_minimalPeriod _ _))
  · rintro ⟨hpos, rfl⟩
    refine ⟨hpos, (hperiodic _).1 (Function.isPeriodicPt_minimalPeriod _ _), fun k hk hlt hseed => ?_⟩
    exact Function.not_isPeriodicPt_of_pos_of_lt_minimalPeriod (by omega) hlt ((hperiodic k).2 hseed)

/-- R68: from the seed the register is at the seed again exactly after multiples of the period. -/
theorem Engine.FirstRecurrence.registerAfter_eq_seed_iff (h : e.FirstRecurrence n) (hreg : e.register = e.seed)
    {k : Nat} : e.registerAfter k = e.seed ↔ n ∣ k := by
  obtain ⟨-, hmin⟩ := (Engine.firstRecurrence_iff_minimalPeriod hreg).1 h
  rw [← hmin, ← Function.isPeriodicPt_iff_minimalPeriod_dvd, Engine.registerAfter, hreg, Function.IsPeriodicPt,
    Function.IsFixedPt]

/-- R68: `k` steps past the seed, the next multiple of the period is `n - k % n` steps away. -/
theorem Engine.FirstRecurrence.after (h : e.FirstRecurrence n) (hreg : e.register = e.seed) (k : Nat) :
    (e.after k).FirstRecurrence (n - k % n) := by
  have hmod : k % n < n := Nat.mod_lt k h.1
  have hdiv := Nat.div_add_mod k n
  refine ⟨by omega, ?_, fun j hj hlt => ?_⟩
  · rw [Engine.registerAfter_after, Engine.after_seed, h.registerAfter_eq_seed_iff hreg]
    exact ⟨k / n + 1, by rw [Nat.mul_succ]; omega⟩
  · rw [Engine.registerAfter_after, Engine.after_seed, Ne, h.registerAfter_eq_seed_iff hreg, Nat.dvd_iff_mod_eq_zero,
      Nat.add_mod, Nat.mod_eq_of_lt (by omega : j < n), Nat.mod_eq_of_lt (by omega)]
    omega

/-- Settles O21: RUN ends at the first recurrence from where the STEPs have left the register. -/
theorem runAfterStepsMeasuresDistanceToSeed : Obligations.RunAfterStepsMeasuresDistanceToSeed := by
  intro s e c p k hgood hreg hfirst hready
  have hfirst' := hfirst.after hreg k
  refine ⟨_, _, answers_respond (exec_run_recurred c hready hfirst' (hfirst'.le_guard (hgood.after k))), ?_⟩
  rw [State.respond_block, State.withBlock_block, hfirst'.after_eq, Engine.after_seed, ← hreg]
  rfl

/-! ### RUN is STEP repeated -/

/-- A STEP that answers `OK` advances a READY Engine and answers its feedback bit. -/
theorem Answers.step_ok {z : Bit} (h : Answers .step s t ⟨.ok, .bit z⟩) (hready : s.block = .ready e) :
    t.block = .ready e.advance ∧ z = e.feedback := by
  obtain ⟨rfl, hresponse⟩ := h.unique (answers_respond (exec_step_ready hready))
  cases hresponse
  exact ⟨rfl, rfl⟩

/-- `k` STEPs leave the Engine `k` steps on. -/
theorem block_after_steps {f : Nat → State} {z : Nat → Bit} {p : Nat} (hready : (f 0).block = .ready e)
    (hsteps : ∀ k, k < p → Answers .step (f k) (f (k + 1)) ⟨.ok, .bit (z k)⟩) :
    ∀ k, k ≤ p → (f k).block = .ready (e.after k) := by
  intro k
  induction k with
  | zero => exact fun _ => hready
  | succ k ih =>
    intro hk
    obtain ⟨hblock, -⟩ := (hsteps k hk).step_ok (ih (by omega))
    rw [hblock, Engine.advance_after]

/-- Settles O23: RUN leaves the Engine `p` steps on and keeps the feedback bits, as the STEPs do one by one. -/
theorem runIsRepeatedStep : Obligations.RunIsRepeatedStep := by
  intro s t c p ks f z hrun hstart hsteps
  obtain ⟨e, hready, -, rfl, hblock⟩ := hrun.run_ok
  have hblocks := block_after_steps (hstart ▸ hready) hsteps
  refine ⟨hblock.trans (hblocks p le_rfl).symm, List.map_congr_left fun k hk => ?_⟩
  have hk : k < p := (List.mem_range.1 hk).trans_le (min_le_left p c)
  obtain ⟨-, hbit⟩ := (hsteps k hk).step_ok (hblocks k hk.le)
  exact hbit.symm

end Sys2Proof.Machine
end

section
/-! Proofs about the step as a map of the W-bit values: the linear recurrence (R70, R76), its inverse (R72), 0 (R26,
R73), and when RUN ends `OK` (R75). -/

namespace Sys2Proof.Machine

variable {width taps : Nat} {e : Engine} {s : State}

/-! ### The linear recurrence -/

/-- R70: after `k` steps a register bit is a bit that a step has fed in, or a bit of the seed. -/
theorem bitAt_registerAfter (hw : 1 ≤ e.width) (hr : e.register < 2 ^ e.width) (k : Nat) {i : Nat} (hi : i < e.width) :
    bitAt (e.registerAfter k) i =
      if e.width ≤ k + i then e.bitAfter (k + i - e.width) else bitAt e.register (i + k) := by
  induction k generalizing i with
  | zero => rw [if_neg (by omega), Engine.registerAfter_zero, Nat.add_zero]
  | succ k ih =>
    rw [Engine.registerAfter_succ]
    by_cases htop : i = e.width - 1
    · subst htop
      rw [bitAt_nextValue_top e.taps hw (Engine.registerAfter_lt hw hr k), if_pos (by omega), Engine.bitAfter]
      congr 2
      omega
    · rw [bitAt_nextValue_low e.taps _ (by omega), ih (by omega)]
      simp only [Nat.add_assoc, Nat.add_comm 1]

/-- The same from the seed. -/
theorem bitAt_registerAfter_fresh {seed : Nat} (hseed : seedValid seed width) (htaps : tapsValid taps width) (k : Nat)
    {i : Nat} (hi : i < width) :
    bitAt ((Engine.fresh seed width taps).registerAfter k) i =
      if width ≤ k + i then (Engine.fresh seed width taps).bitAfter (k + i - width) else bitAt seed (i + k) :=
  bitAt_registerAfter (e := Engine.fresh seed width taps) (width_pos_of_tapsValid htaps)
    (lt_two_pow_of_seedValid hseed) k hi

/-- Settles O25: the feedback bit reads the tapped register bits, each of which `bitAt_registerAfter` traces back. -/
theorem keystreamObeysLinearRecurrence : Obligations.KeystreamObeysLinearRecurrence := by
  intro seed width taps hseed htaps
  have hbits := fun k i (hi : i < width) => bitAt_registerAfter_fresh hseed htaps k hi
  refine ⟨hbits, fun k hk => xorOver_congr fun t ht => ?_, fun k hk => xorOver_congr fun t ht => ?_⟩
  · have hlt := htaps.2 t (mem_tapPositions.1 ht)
    refine (hbits k t hlt).trans ?_
    rw [if_pos (by omega)]
    congr 1
    omega
  · have hlt := htaps.2 t (mem_tapPositions.1 ht)
    refine (hbits k t hlt).trans ?_
    by_cases hreach : width ≤ k + t
    · rw [if_pos hreach, if_neg (by omega)]
      congr 1
      omega
    · rw [if_neg hreach, if_pos (by omega)]

/-- Settles O30: the bit that is dropped is bit 0 of the register, which `bitAt_registerAfter` traces back. -/
theorem droppedBitsAreSeedThenKeystream : Obligations.DroppedBitsAreSeedThenKeystream := by
  intro seed width taps k hseed htaps
  refine (bitAt_registerAfter_fresh hseed htaps k (width_pos_of_tapsValid htaps)).trans ?_
  by_cases hk : k < width
  · rw [if_neg (by omega), if_pos hk, Nat.zero_add]
  · rw [if_pos (by omega), if_neg hk]
    rfl

/-! ### The inverse of the step -/

/-- R72: with position 0 a tap the feedback bit is bit 0 with the bits at the other taps. -/
theorem feedbackBit_of_tapZero (h0 : bitAt taps 0 = true) (r : Nat) :
    feedbackBit taps r = (bitAt r 0 ^^ xorOver ((tapPositions taps).filter (· != 0)) (bitAt r)) := by
  have hperm : (tapPositions taps).Perm (0 :: (tapPositions taps).filter (· != 0)) := by
    rw [← (tapPositions_nodup taps).erase_eq_filter]
    exact List.perm_cons_erase (mem_tapPositions.2 h0)
  rw [feedbackBit, xorOver_perm hperm, xorOver_cons]

/-- R72: every bit but bit 0 stands one place lower in the next value. -/
theorem bitAt_eq_bitAt_nextValue (taps r : Nat) {i : Nat} (hpos : 1 ≤ i) (hi : i < width) :
    bitAt r i = bitAt (nextValue width taps r) (i - 1) := by
  rw [bitAt_nextValue_low taps r (by omega), Nat.sub_add_cancel hpos]

/-- R72: bit 0 is the feedback bit with the bits at the other taps taken out again. -/
theorem bitAt_zero_eq (htaps : tapsValid taps width) (h0 : bitAt taps 0 = true) {r : Nat} (hr : r < 2 ^ width) :
    bitAt r 0 = (bitAt (nextValue width taps r) (width - 1) ^^
      xorOver ((tapPositions taps).filter (· != 0)) (fun t => bitAt (nextValue width taps r) (t - 1))) := by
  have hothers : xorOver ((tapPositions taps).filter (· != 0)) (fun t => bitAt (nextValue width taps r) (t - 1)) =
      xorOver ((tapPositions taps).filter (· != 0)) (bitAt r) := by
    refine xorOver_congr fun t ht => ?_
    simp only [List.mem_filter, mem_tapPositions, bne_iff_ne] at ht
    exact (bitAt_eq_bitAt_nextValue taps r (by omega) (htaps.2 t ht.1)).symm
  rw [hothers, bitAt_nextValue_top taps (width_pos_of_tapsValid htaps) hr, feedbackBit_of_tapZero h0, Bool.xor_assoc,
    Bool.xor_self, Bool.xor_false]

theorem nextValue_mapsTo (htaps : tapsValid taps width) :
    Set.MapsTo (nextValue width taps) (Set.Iio (2 ^ width)) (Set.Iio (2 ^ width)) :=
  fun _ hr => nextValue_lt taps (width_pos_of_tapsValid htaps) hr

/-- R72: the next value determines every bit, so no two values share it. -/
theorem nextValue_injOn (htaps : tapsValid taps width) (h0 : bitAt taps 0 = true) :
    Set.InjOn (nextValue width taps) (Set.Iio (2 ^ width)) := by
  intro r hr r' hr' heq
  refine Nat.eq_of_testBit_eq fun i => ?_
  change bitAt r i = bitAt r' i
  rcases Nat.eq_zero_or_pos i with rfl | hpos
  · rw [bitAt_zero_eq htaps h0 hr, bitAt_zero_eq htaps h0 hr', heq]
  · rcases lt_or_ge i width with hi | hi
    · rw [bitAt_eq_bitAt_nextValue taps r hpos hi, bitAt_eq_bitAt_nextValue taps r' hpos hi, heq]
    · have hpow : 2 ^ width ≤ 2 ^ i := Nat.pow_le_pow_right two_pos hi
      rw [bitAt_eq_false_of_lt (hr.trans_le hpow), bitAt_eq_false_of_lt (hr'.trans_le hpow)]

theorem nextValue_bijOn (htaps : tapsValid taps width) (h0 : bitAt taps 0 = true) :
    Set.BijOn (nextValue width taps) (Set.Iio (2 ^ width)) (Set.Iio (2 ^ width)) := by
  have hmaps := nextValue_mapsTo htaps
  have hinj := nextValue_injOn htaps h0
  refine ⟨hmaps, hinj, ?_⟩
  rw [← Finset.coe_range] at hmaps hinj ⊢
  exact Finset.surjOn_of_injOn_of_card_le _ hmaps hinj le_rfl

/-- R72: the cycles of the step cover all W-bit values. -/
theorem exists_iterate_nextValue_eq (htaps : tapsValid taps width) (h0 : bitAt taps 0 = true) {r : Nat}
    (hr : r < 2 ^ width) : ∃ n, 1 ≤ n ∧ (nextValue width taps)^[n] r = r := by
  have hmaps := nextValue_mapsTo htaps
  have hinj : Function.Injective hmaps.restrict := hmaps.restrict_inj.2 (nextValue_injOn htaps h0)
  obtain ⟨n, hn, hper⟩ := hinj.mem_periodicPts ⟨r, hr⟩
  refine ⟨n, hn, ?_⟩
  rw [← hmaps.coe_iterate_restrict ⟨r, hr⟩ n]
  exact congrArg Subtype.val hper

/-- R72: without position 0 a tap nothing reads bit 0 before it is dropped. -/
theorem nextValue_xor_one (h0 : bitAt taps 0 = false) (r : Nat) :
    nextValue width taps (r ^^^ 1) = nextValue width taps r := by
  have hfeedback : feedbackBit taps (r ^^^ 1) = feedbackBit taps r := by
    refine xorOver_congr fun t ht => ?_
    have hne : t ≠ 0 := by
      rintro rfl
      simp [h0] at ht
    have hone : bitAt 1 t = false := bitAt_eq_false_of_lt (Nat.one_lt_two_pow hne)
    rw [bitAt] at hone
    rw [bitAt, bitAt, Nat.testBit_xor, hone, Bool.xor_false]
  rw [nextValue, nextValue, hfeedback, Nat.shiftRight_xor_distrib]
  simp

/-- R72: two values meet in 0, so some value is nobody's next, and it is not 0. -/
theorem exists_ne_nextValue (htaps : tapsValid taps width) (h0 : bitAt taps 0 = false) :
    ∃ v, 0 < v ∧ v < 2 ^ width ∧ ∀ r, r < 2 ^ width → nextValue width taps r ≠ v := by
  by_contra hall
  push Not at hall
  have hmaps := nextValue_mapsTo htaps
  have hsurj : Set.SurjOn (nextValue width taps) (Set.Iio (2 ^ width)) (Set.Iio (2 ^ width)) := by
    intro v hv
    rcases Nat.eq_zero_or_pos v with rfl | hpos
    · exact ⟨0, hv, nextValue_zero width taps⟩
    · exact hall v hpos hv
  rw [← Finset.coe_range] at hmaps hsurj
  have hinj := Finset.injOn_of_surjOn_of_card_le _ hmaps hsurj le_rfl
  rw [Finset.coe_range] at hinj
  have hone : 1 < 2 ^ width := Nat.one_lt_two_pow (Nat.one_le_iff_ne_zero.1 (width_pos_of_tapsValid htaps))
  have hmeet : nextValue width taps 1 = nextValue width taps 0 := nextValue_xor_one h0 0
  exact one_ne_zero (hinj hone (Nat.two_pow_pos width) hmeet)

/-- Settles O26, clause by clause. -/
theorem nextValueReversibleExactlyWithTapZero : Obligations.NextValueReversibleExactlyWithTapZero := by
  intro width taps htaps
  refine ⟨fun h0 => ⟨nextValue_bijOn htaps h0, fun r hr => ?_⟩,
    fun h0 => ⟨nextValue_xor_one h0, exists_ne_nextValue htaps h0⟩⟩
  exact ⟨fun i => bitAt_eq_bitAt_nextValue taps r, bitAt_zero_eq htaps h0 hr, exists_iterate_nextValue_eq htaps h0 hr⟩

/-! ### With position 0 a tap -/

/-- R75: the register stands on the seed's cycle, so it meets the seed again. -/
theorem Engine.Good.exists_firstRecurrence (hgood : e.Good) (h0 : bitAt e.taps 0 = true) :
    ∃ p, e.FirstRecurrence p := by
  obtain ⟨n, hn, hcycle⟩ :=
    exists_iterate_nextValue_eq hgood.taps_valid h0 (lt_two_pow_of_seedValid hgood.seed_valid)
  have hle : e.stepCount + 1 ≤ n * (e.stepCount + 1) := Nat.le_mul_of_pos_left _ hn
  have hback : e.registerAfter (n * (e.stepCount + 1) - e.stepCount) = e.seed := by
    rw [Engine.registerAfter, hgood.register_traced, ← Function.iterate_add_apply, Nat.sub_add_cancel (by omega)]
    exact Function.IsPeriodicPt.mul_const hcycle _
  obtain ⟨p, -, hfirst⟩ := Engine.exists_firstRecurrence (by omega) hback
  exact ⟨p, hfirst⟩

/-- Settles O27: the first recurrence exists and is within the guard. -/
theorem tapZeroRunAlwaysEndsOk : Obligations.TapZeroRunAlwaysEndsOk := by
  intro s e c hready hgood h0
  obtain ⟨p, hfirst⟩ := hgood.exists_firstRecurrence h0
  refine ⟨p, hfirst.1, hfirst.le_of_good hgood, ?_⟩
  rw [exec_run_recurred c hready hfirst (hfirst.le_guard hgood), hfirst.after_eq]
  rfl

/-- R26: from 0 the seed would never be met again. -/
theorem Engine.Good.register_ne_zero (hgood : e.Good) (h0 : bitAt e.taps 0 = true) : e.register ≠ 0 := by
  obtain ⟨p, hfirst⟩ := hgood.exists_firstRecurrence h0
  exact hfirst.registerAfter_ne_zero hgood (Nat.zero_le p)

/-- Settles O48: the first clause is `Engine.Good.register_ne_zero`, the rest the spec's example. -/
theorem registerNonzeroWithTapZero : Obligations.RegisterNonzeroWithTapZero := by
  have hgood : (Engine.fresh 1 3 2).Good := Engine.good_fresh (by decide) (tapsValid_iff.2 (by decide))
  exact ⟨fun s e hinv he h0 => (hinv e he).register_ne_zero h0, hgood, hgood.after 1, by decide⟩

/-! ### Zero, and without position 0 a tap -/

/-- R73, R75: a register at 0 never meets the seed, which is not 0. -/
theorem Engine.Good.registerAfter_ne_seed (hgood : e.Good) (hzero : e.register = 0) (k : Nat) :
    e.registerAfter k ≠ e.seed := by
  have hpos := hgood.seed_valid.1
  rw [Engine.registerAfter_eq_zero (i := 0) hzero (Nat.zero_le k)]
  omega

/-- Settles O28: 0 is kept, feeds 0 back and is no seed, so RUN from it meets the guard. -/
theorem zeroRegisterIsAbsorbing : Obligations.ZeroRegisterIsAbsorbing := by
  refine ⟨fun width taps => ⟨nextValue_zero width taps, feedbackBit_zero taps⟩, fun s width taps => ?_,
    fun s e c hready hgood hzero => ⟨?_, fun k => ?_, ?_⟩⟩
  · exact ⟨_, answers_raise (exec_init_invalidSeed taps s (seedTestFails_eq_true.2 (.inl rfl)))⟩
  · rw [← Bool.not_eq_true]
    exact fun h0 => hgood.register_ne_zero h0 hzero
  · have hk : e.registerAfter k = 0 := Engine.registerAfter_eq_zero (i := 0) hzero (Nat.zero_le k)
    exact ⟨hk, by rw [Engine.bitAfter, hk, feedbackBit_zero]⟩
  · exact (answers_nonTerminating_iff c hready).2 fun k _ _ => hgood.registerAfter_ne_seed hzero k

/-- R75: a seed that is nobody's next value is never met again. -/
theorem registerAfter_fresh_ne {seed : Nat} (hseed : seedValid seed width) (htaps : tapsValid taps width)
    (hnone : ∀ r, r < 2 ^ width → nextValue width taps r ≠ seed) {k : Nat} (hk : 1 ≤ k) :
    (Engine.fresh seed width taps).registerAfter k ≠ seed := by
  obtain ⟨k, rfl⟩ := Nat.exists_eq_add_of_le' hk
  rw [Engine.registerAfter_succ]
  exact hnone _ ((Engine.good_fresh hseed htaps).registerAfter_lt k)

/-- Settles O29: the seed is a value without a predecessor. -/
theorem nonTerminatingReachableWithoutTapZero : Obligations.NonTerminatingReachableWithoutTapZero := by
  intro width taps htaps h0
  obtain ⟨seed, hpos, hlt, hnone⟩ := exists_ne_nextValue htaps h0
  have hseed : seedValid seed width := ⟨hpos, Nat.le_sub_one_of_lt hlt⟩
  refine ⟨seed, hseed, fun s c => ?_⟩
  have hinit := answers_respond (exec_init_ok s (seedValid_iff.1 hseed) (tapsValid_iff.1 htaps))
  refine ⟨_, _, hinit, answers_respond (exec_run_exhausted c rfl fun k hk _ => ?_), rfl⟩
  exact registerAfter_fresh_ne hseed htaps hnone hk

end Sys2Proof.Machine
end

section
/-! Proofs about maximal periods and the reference configuration (R9, R77). -/

namespace Sys2Proof.Machine

variable {e : Engine} {n : Nat}

/-! ### A maximal period -/

/-- R63: the bits that steps return are the top bits of the values they leave. -/
theorem Engine.Good.bits_eq (hgood : e.Good) (n : Nat) :
    e.bits n = (e.visited n).map (bitAt · (e.width - 1)) := by
  rw [Engine.bits, Engine.visited, List.map_map]
  refine List.map_congr_left fun k _ => ?_
  rw [Function.comp_apply, Engine.registerAfter_succ,
    bitAt_nextValue_top e.taps hgood.width_pos (hgood.registerAfter_lt k)]
  rfl

/-- Half of the W-bit values have their top bit, and 0 is not one of them. -/
theorem countP_topBit {width : Nat} (hw : 1 ≤ width) :
    (List.range' 1 (2 ^ width - 1)).countP (bitAt · (width - 1)) = 2 ^ (width - 1) := by
  obtain ⟨m, rfl⟩ := Nat.exists_eq_add_of_le' hw
  have hpow : 2 ^ (m + 1) = 2 ^ m * 2 := pow_succ 2 m
  have hpos := Nat.two_pow_pos m
  have hsplit : List.range' 1 (2 ^ (m + 1) - 1) = List.range' 1 (2 ^ m - 1) ++ List.range' (2 ^ m) (2 ^ m) := by
    have h := List.range'_append_1 (s := 1) (m := 2 ^ m - 1) (n := 2 ^ m)
    rw [Nat.add_sub_cancel' hpos, ← Nat.sub_add_comm hpos, ← Nat.mul_two, ← hpow] at h
    exact h.symm
  have hlow : (List.range' 1 (2 ^ m - 1)).countP (bitAt · m) = 0 := by
    refine List.countP_eq_zero.2 fun r hr => ?_
    rw [List.mem_range'_1] at hr
    simp only [bitAt_eq_false_of_lt (show r < 2 ^ m by omega), Bool.false_eq_true, not_false_eq_true]
  have hhigh : (List.range' (2 ^ m) (2 ^ m)).countP (bitAt · m) = 2 ^ m := by
    refine (List.countP_eq_length.2 fun r hr => ?_).trans List.length_range'
    rw [List.mem_range'_1] at hr
    exact Nat.testBit_of_two_pow_le_and_two_pow_add_one_gt hr.1 (by omega)
  rw [Nat.add_sub_cancel, hsplit, List.countP_append, hlow, hhigh, Nat.zero_add]

/-- R77: with a maximal period RUN visits every nonzero value of W bits. -/
theorem Engine.FirstRecurrence.visited_perm (h : e.FirstRecurrence (2 ^ e.width - 1)) (hgood : e.Good) :
    (e.visited (2 ^ e.width - 1)).Perm (List.range' 1 (2 ^ e.width - 1)) :=
  (h.visited_subperm hgood).perm_of_length_le (by simp)

/-- R77: a maximal period returns a 1 for each value with its top bit. -/
theorem Engine.FirstRecurrence.count_true_bits (h : e.FirstRecurrence (2 ^ e.width - 1)) (hgood : e.Good) :
    (e.bits (2 ^ e.width - 1)).count true = 2 ^ (e.width - 1) := by
  rw [hgood.bits_eq, List.count, List.countP_map, ← countP_topBit hgood.width_pos, (h.visited_perm hgood).countP_eq]
  exact List.countP_congr fun r _ => by simp

/-- R77: every legal seed lies on the cycle of a seed of maximal period, and so has that period. -/
theorem Engine.FirstRecurrence.of_maximal {width taps seed seed' : Nat} (htaps : tapsValid taps width)
    (hseed : seedValid seed width) (h : (Engine.fresh seed width taps).FirstRecurrence (2 ^ width - 1))
    (hseed' : seedValid seed' width) : (Engine.fresh seed' width taps).FirstRecurrence (2 ^ width - 1) := by
  have hmem : seed' ∈ (Engine.fresh seed width taps).visited (2 ^ width - 1) := by
    refine (h.visited_perm (Engine.good_fresh hseed htaps)).mem_iff.2 ?_
    rw [List.mem_range'_1, Engine.fresh_width]
    exact ⟨hseed'.1, by omega⟩
  obtain ⟨k, -, rfl⟩ := List.mem_map.1 hmem
  obtain ⟨hpos, hmin⟩ := (Engine.firstRecurrence_iff_minimalPeriod rfl).1 h
  have hperiodic : seed ∈ Function.periodicPts (nextValue width taps) :=
    Function.minimalPeriod_pos_iff_mem_periodicPts.1 (hmin ▸ hpos)
  refine (Engine.firstRecurrence_iff_minimalPeriod rfl).2 ⟨hpos, ?_⟩
  exact (Function.minimalPeriod_apply_iterate hperiodic (k + 1)).trans hmin

/-- A period that no prime divides away is minimal. -/
theorem minimalPeriod_eq_of_prime_quotients {f : Nat → Nat} {x : Nat} (hper : Function.IsPeriodicPt f n x)
    (hprime : ∀ p, p.Prime → p ∣ n → ¬ Function.IsPeriodicPt f (n / p) x) : Function.minimalPeriod f x = n := by
  obtain ⟨m, hm⟩ := hper.minimalPeriod_dvd
  by_contra hne
  have hm1 : m ≠ 1 := by
    rintro rfl
    exact hne (hm.trans (Nat.mul_one _)).symm
  obtain ⟨p, hp, q, rfl⟩ := Nat.exists_prime_and_dvd hm1
  refine hprime p hp ⟨Function.minimalPeriod f x * q, by rw [hm]; ring⟩ ?_
  rw [Function.isPeriodicPt_iff_minimalPeriod_dvd]
  refine ⟨q, Nat.div_eq_of_eq_mul_right hp.pos ?_⟩
  rw [hm]
  ring

/-! ### The reference taps -/

/-- The next value under the reference taps {0, 7} and W = 10, as arithmetic. -/
def referenceNext (r : Nat) : Nat := r / 2 + (r + r / 128) % 2 * 512

theorem nextValue_reference {r : Nat} (hr : r < 2 ^ 10) : nextValue 10 0b0010000001 r = referenceNext r := by
  have hxor (a b : Bool) : (a ^^ b).toNat = (a.toNat + b.toNat) % 2 := by cases a <;> cases b <;> rfl
  rw [nextValue_eq_add _ (by decide) hr, feedbackBit_reference, hxor, bitAt, bitAt, Nat.toNat_testBit,
    Nat.toNat_testBit, pow_zero, Nat.div_one, ← Nat.add_mod]
  rfl

theorem nextValue_reference_iterate (k : Nat) : (nextValue 10 0b0010000001)^[k] 1 = referenceNext^[k] 1 := by
  induction k with
  | zero => rfl
  | succ k ih =>
    rw [Function.iterate_succ_apply', Function.iterate_succ_apply', ← ih,
      nextValue_reference (nextValue_iterate_lt _ (by decide) (by decide) k)]

/-- The register that `31 * k` steps from seed 1 leave, for `k` up to 33. -/
def referenceCheckpoint (k : Nat) : Nat :=
  [1, 207, 225, 456, 188, 853, 692, 335, 459, 492, 631, 237, 139, 52, 561, 423, 689, 702, 685, 775, 58, 749, 236, 68,
    213, 1017, 283, 484, 10, 994, 716, 470, 154, 1].getD k 0

theorem referenceCheckpoint_succ :
    ∀ k < 33, referenceNext^[31] (referenceCheckpoint k) = referenceCheckpoint (k + 1) := by decide

theorem referenceNext_iterate_checkpoint (k : Nat) (hk : k ≤ 33) :
    referenceNext^[31 * k] 1 = referenceCheckpoint k := by
  induction k with
  | zero => rfl
  | succ k ih =>
    rw [Nat.mul_succ, Nat.add_comm, Function.iterate_add_apply, ih (by omega), referenceCheckpoint_succ k hk]

/-- R77: 1023 = 3 * 11 * 31 steps from seed 1 come back to it, and without one of these primes they do not: 341, 93 and
33 steps leave 237, 456 and 563. -/
theorem minimalPeriod_reference : Function.minimalPeriod (nextValue 10 0b0010000001) 1 = 1023 := by
  have hperiodic (k : Nat) :
      Function.IsPeriodicPt (nextValue 10 0b0010000001) k 1 ↔ referenceNext^[k] 1 = 1 := by
    rw [Function.IsPeriodicPt, Function.IsFixedPt, nextValue_reference_iterate]
  refine minimalPeriod_eq_of_prime_quotients ?_ fun p hp hdvd => ?_
  · exact (hperiodic _).2 (referenceNext_iterate_checkpoint 33 (by decide))
  · have hcases : p = 3 ∨ p = 11 ∨ p = 31 := by
      rw [show 1023 = 3 * (11 * 31) from rfl, hp.dvd_mul, hp.dvd_mul, Nat.prime_dvd_prime_iff_eq hp (by norm_num),
        Nat.prime_dvd_prime_iff_eq hp (by norm_num), Nat.prime_dvd_prime_iff_eq hp (by norm_num)] at hdvd
      exact hdvd
    rw [hperiodic]
    rcases hcases with rfl | rfl | rfl
    · exact (referenceNext_iterate_checkpoint 11 (by decide)).trans_ne (by decide)
    · exact (referenceNext_iterate_checkpoint 3 (by decide)).trans_ne (by decide)
    · decide

theorem tapsValid_reference : tapsValid 0b0010000001 10 := tapsValid_iff.2 (by decide)

/-- R77: from every legal seed the reference taps have the maximal period. -/
theorem firstRecurrence_reference {seed : Nat} (hseed : seedValid seed 10) :
    (Engine.fresh seed 10 0b0010000001).FirstRecurrence (2 ^ 10 - 1) := by
  have hone : (Engine.fresh 1 10 0b0010000001).FirstRecurrence (2 ^ 10 - 1) :=
    (Engine.firstRecurrence_iff_minimalPeriod rfl).2 ⟨by decide, minimalPeriod_reference⟩
  exact hone.of_maximal tapsValid_reference (by decide) hseed

/-- Settles O31: RUN ends at that period, and a whole period has 2^9 ones. -/
theorem referenceTapsHavePeriod1023 : Obligations.ReferenceTapsHavePeriod1023 := by
  intro s seed c hpos hle
  have hseed : seedValid seed 10 := ⟨hpos, hle⟩
  have hgood := Engine.good_fresh hseed tapsValid_reference
  have hfirst := firstRecurrence_reference hseed
  have hinit := exec_init_ok s (seedValid_iff.1 hseed) (tapsValid_iff.1 tapsValid_reference)
  refine ⟨_, _, _, answers_respond hinit, answers_respond (exec_run_recurred c rfl hfirst (hfirst.le_guard hgood)),
    Engine.bits_length _ _, fun hc => ?_⟩
  rw [Nat.min_eq_left hc]
  exact hfirst.count_true_bits hgood

end Sys2Proof.Machine
end

section
/-! The normal session (R108): INIT, RUN, ENCRYPT and DECRYPT presented one after another. -/

namespace Sys2Proof.Machine

/-- A run of the machine takes the record of a command that the host presents next and performs the command. -/
theorem run_succ_of_exec {s t : State} {i : Instr} {rest : List HostEvent} (k : Nat)
    (hevents : s.events = .command (encode i) :: rest) (hexec : exec i.expand { s with events := rest } = .next t) :
    Sys2Proof.core.run (k + 1) s = Sys2Proof.core.run k t := by
  have hstep : Sys2Proof.core.step s = .next t := (step_command hevents (decodeInvertsEncode i)).trans hexec
  simp only [Host.Core.run, hstep]

/-- Settles O50: the first recurrence gives the period and the keystream, `xorBits` the ciphertext; each command's
record is taken in its turn. -/
theorem sessionRecoversPlaintext : Obligations.SessionRecoversPlaintext := by
  intro seed width taps cap hseed htaps h0
  have hgood := Engine.good_fresh hseed htaps
  obtain ⟨p, hfirst⟩ := hgood.exists_firstRecurrence h0
  refine ⟨p, (Engine.fresh seed width taps).bits (min p cap), hfirst.1, hfirst.le_of_good hgood, Engine.bits_length _ _,
    fun plain hle => ?_⟩
  have hlength := xorBits_length hle
  refine ⟨_, hlength, fun s rest hevents => ?_⟩
  rw [run_succ_of_exec 3 hevents (exec_init_ok _ (seedValid_iff.1 hseed) (tapsValid_iff.1 htaps)),
    run_succ_of_exec (i := .run cap) 2 rfl (exec_run_recurred cap rfl hfirst (hfirst.le_guard hgood)),
    run_succ_of_exec (i := .encrypt plain _) 1 rfl (exec_xor_ok _ hle),
    run_succ_of_exec (i := .decrypt _ _) 0 rfl (exec_xor_ok _ (hlength.trans_le hle)),
    xorBits_xorBits hle, hfirst.after_eq]
  simp [Host.Core.run, State.respond, State.withBlock]

end Sys2Proof.Machine
end
